-- ==== Sys2Proof/Word.lean ====
section
/-! DEFINITION. The bit-vector types of the block: the wire byte, the 10-bit command word, the 9-bit decode key. -/

namespace Sys2Proof

/-- A byte: an unsigned 8-bit value, every one of them legal (R8). -/
abbrev Byte := BitVec 8

/-- A command word `cmd[9:0]`, format CMD (R61). -/
abbrev CmdWord := BitVec 10

/-- A decode key `k = {mode, b}`, format DKEY (R63). -/
abbrev Key := BitVec 9

end Sys2Proof
end

