-- ==== Sys2Proof/Syntax.lean ====
section
/-! DEFINITION. The whole syntax: the operands of ENCODE, one constructor of `Instr` for each row of the opcode table
(4 CMD rows, 6 DKEY rows, 3 EBYTE rows), and the words that stand for them. -/

namespace Sys2Proof

/-- The operands that travel with an ENCODE (format ENC_ARGS, R61). The payload carries its own length (D10), so
`payload_len` is `pay.length`. `TX` is the host's buffer and stands in the state. `overlap` says whether the host has
placed `PAY` and `TX` so that they share storage, which separate index spaces cannot show (R43; log entry 6). -/
structure EncArgs where
  pay : List Byte
  outCapacity : Nat
  overlap : Bool
  deriving DecidableEq, Repr

/-- No ENC_ARGS: what ON_BYTE, RESET and the reserved word come with. -/
def EncArgs.absent : EncArgs := { pay := [], outCapacity := 0, overlap := false }

/-- The rows of the decode table (R63). -/
inductive DRow where
  | dEnd | dEsc | dData | eEscEnd | eEscEsc | eInvalid
  deriving DecidableEq, Repr

/-- The rows of the encode table (R64). -/
inductive XRow where
  | xEnd | xEsc | xData
  deriving DecidableEq, Repr

/-- One constructor per row of the opcode table. `ignored` is `cmd[7:0]` where R69(e) gives it no meaning. -/
inductive Instr where
  /-- `ON_BYTE b` (R100). -/
  | onByte (b : Byte)
  /-- `ENCODE PAY, C` (R120). -/
  | encode (ignored : Byte) (args : EncArgs)
  /-- `RESET` (R105). -/
  | reset (ignored : Byte)
  /-- `op = 0b11`, which names no operation (R69(a)). -/
  | reserved (ignored : Byte)
  /-- Row `D.END` (R81). -/
  | dEnd
  /-- Row `D.ESC` (R82). -/
  | dEsc
  /-- Row `D.DATA` (R83). -/
  | dData (b : Byte)
  /-- Row `E.ESC_END` (R84). -/
  | eEscEnd
  /-- Row `E.ESC_ESC` (R85). -/
  | eEscEsc
  /-- Row `E.INVALID` (R87). -/
  | eInvalid (b : Byte)
  /-- Row `X.END` (R124). -/
  | xEnd
  /-- Row `X.ESC` (R125). -/
  | xEsc
  /-- Row `X.DATA` (R126). -/
  | xData (p : Byte)
  deriving DecidableEq, Repr

/-- What the host presents for one operation: the command word and, for ENCODE, its operands (R61, R70). -/
structure Transaction where
  cmd : CmdWord
  args : EncArgs
  deriving DecidableEq, Repr

/-- A word of one of the three formats of the opcode table: CMD (R61), DKEY (R63), EBYTE (R64). -/
inductive Code where
  | cmd (t : Transaction)
  | key (k : Key)
  | encByte (p : Byte)
  deriving DecidableEq, Repr

end Sys2Proof
end

