-- ==== Sys2Proof/WellFormed.lean ====
section
/-! DEFINITION. Which instructions the encodings admit: the catch-all rows take the 254 bytes that no exact row of their
mode matches, and the lengths of an ENCODE fit in `LEN_W` bits. -/

namespace Sys2Proof

/-- `payload_len` and `out_capacity` are unsigned numbers of `LEN_W` bits (R61). -/
def EncArgs.wf (lenW : Nat) (a : EncArgs) : Bool :=
  decide (a.pay.length < 2 ^ lenW) && decide (a.outCapacity < 2 ^ lenW)

/-- The operand checks, row by row (R83, R87, R126 for the bytes; R61 for the lengths). -/
def Instr.wf (lenW : Nat) (i : Instr) : Bool :=
  match i with
  | .onByte _ => true
  | .encode _ a => a.wf lenW
  | .reset _ => true
  | .reserved _ => true
  | .dEnd => true
  | .dEsc => true
  | .dData b => b != 0xC0#8 && b != 0xDB#8
  | .eEscEnd => true
  | .eEscEsc => true
  | .eInvalid b => b != 0xDC#8 && b != 0xDD#8
  | .xEnd => true
  | .xEsc => true
  | .xData p => p != 0xC0#8 && p != 0xDB#8

end Sys2Proof
end

