-- ==== Sys2Proof/Decode.lean ====
section
/-! DEFINITION. The wire constants, the total decoders of the three formats (R61, R63, R64), the encoder back to words,
and the reading of the opcode table's own words. -/

namespace Sys2Proof

/-! ### The named bytes (R13, R62) -/

/-- Frame delimiter. -/
def END : Byte := 0xC0#8
/-- Escape marker. -/
def ESC : Byte := 0xDB#8
/-- Escaped delimiter: stands for `END` directly after `ESC`. -/
def ESC_END : Byte := 0xDC#8
/-- Escaped escape marker: stands for `ESC` directly after `ESC`. -/
def ESC_ESC : Byte := 0xDD#8

/-! ### Format CMD (R61) -/

/-- `op = cmd[9:8]`. -/
def opField (c : CmdWord) : BitVec 2 := c.extractLsb' 8 2

/-- `b = cmd[7:0]`, taken exactly as received (R68). -/
def byteField (c : CmdWord) : Byte := c.extractLsb' 0 8

/-- The command word with these two fields. -/
def cmdWord (op : BitVec 2) (b : Byte) : CmdWord := op ++ b

/-- Every command word selects exactly one operation or the reserved refusal (R61, R69(a), R72). -/
def decodeTransaction (t : Transaction) : Instr :=
  if opField t.cmd = 0b00#2 then .onByte (byteField t.cmd)
  else if opField t.cmd = 0b01#2 then .encode (byteField t.cmd) t.args
  else if opField t.cmd = 0b10#2 then .reset (byteField t.cmd)
  else .reserved (byteField t.cmd)

/-! ### Format DKEY (R63) -/

/-- `k[7:0]`. -/
def keyByte (k : Key) : Byte := k.extractLsb' 0 8

/-- `k[8]`. -/
def keyMode (k : Key) : BitVec 1 := k.extractLsb' 8 1

/-- The decode table, its rows tried in priority order by `(k & mask) == match` (R63). The last row needs no test:
a key that fails `k & 0x100 == 0x000` has `k & 0x100 == 0x100`. -/
def rowOfKey (k : Key) : DRow :=
  if k &&& 0x1FF#9 = 0x0C0#9 then .dEnd
  else if k &&& 0x1FF#9 = 0x0DB#9 then .dEsc
  else if k &&& 0x1FF#9 = 0x1DC#9 then .eEscEnd
  else if k &&& 0x1FF#9 = 0x1DD#9 then .eEscEsc
  else if k &&& 0x100#9 = 0x000#9 then .dData
  else .eInvalid

/-- The instruction of a decode row, with the received byte where the row takes one. -/
def DRow.instr (r : DRow) (b : Byte) : Instr :=
  match r with
  | .dEnd => .dEnd
  | .dEsc => .dEsc
  | .dData => .dData b
  | .eEscEnd => .eEscEnd
  | .eEscEsc => .eEscEsc
  | .eInvalid => .eInvalid b

/-- The instruction a decode key selects. -/
def decodeKey (k : Key) : Instr := (rowOfKey k).instr (keyByte k)

/-! ### Format EBYTE (R64) -/

/-- The encode table, its rows tried in priority order; `X.DATA` has mask 0 and matches every byte (R64). -/
def rowOfByte (p : Byte) : XRow :=
  if p &&& 0xFF#8 = 0xC0#8 then .xEnd
  else if p &&& 0xFF#8 = 0xDB#8 then .xEsc
  else .xData

/-- The instruction of an encode row, with the payload byte where the row takes one. -/
def XRow.instr (r : XRow) (p : Byte) : Instr :=
  match r with
  | .xEnd => .xEnd
  | .xEsc => .xEsc
  | .xData => .xData p

/-- The instruction a payload byte selects. -/
def decodeEncByte (p : Byte) : Instr := (rowOfByte p).instr p

/-! ### All formats -/

/-- The decoder: total on every word of every format. -/
def decode (c : Code) : Instr :=
  match c with
  | .cmd t => decodeTransaction t
  | .key k => decodeKey k
  | .encByte p => decodeEncByte p

/-- The encoder: the word of an instruction, in the format of its row (R61, R63, R64). -/
def encode (i : Instr) : Code :=
  match i with
  | .onByte b => .cmd { cmd := cmdWord 0b00#2 b, args := EncArgs.absent }
  | .encode ig a => .cmd { cmd := cmdWord 0b01#2 ig, args := a }
  | .reset ig => .cmd { cmd := cmdWord 0b10#2 ig, args := EncArgs.absent }
  | .reserved ig => .cmd { cmd := cmdWord 0b11#2 ig, args := EncArgs.absent }
  | .dEnd => .key 0x0C0#9
  | .dEsc => .key 0x0DB#9
  | .dData b => .key (0b0#1 ++ b)
  | .eEscEnd => .key 0x1DC#9
  | .eEscEsc => .key 0x1DD#9
  | .eInvalid b => .key (0b1#1 ++ b)
  | .xEnd => .encByte 0xC0#8
  | .xEsc => .encByte 0xDB#8
  | .xData p => .encByte p

/-! ### The opcode table's words -/

/-- The four keys that an exact (priority 1) row of the decode table matches. -/
def isExactKey (w : Nat) : Bool := w == 0x0C0 || w == 0x0DB || w == 0x1DC || w == 0x1DD

/-- The word of the table that `nbits` bits with value `w` stand for. 8 bits are an EBYTE, 9 a DKEY, 10 a CMD. In whole
bytes a DKEY and a CMD are both 16 bits and carry no mark of their format, so there the most specific row of the table
wins: an exact key is read as that key, every other word as a CMD with no ENC_ARGS (log entry 9). -/
def tableCode (nbits w : Nat) : Option Code :=
  if nbits = 8 then
    if w < 256 then some (.encByte (BitVec.ofNat 8 w)) else none
  else if nbits = 9 then
    if w < 512 then some (.key (BitVec.ofNat 9 w)) else none
  else if nbits = 10 then
    if w < 1024 then some (.cmd { cmd := BitVec.ofNat 10 w, args := EncArgs.absent }) else none
  else if nbits = 16 then
    if isExactKey w then some (.key (BitVec.ofNat 9 w))
    else if w < 1024 then some (.cmd { cmd := BitVec.ofNat 10 w, args := EncArgs.absent })
    else none
  else none

/-- The instruction the decoder reads from a word of the opcode table. -/
def decodeTableWord (nbits w : Nat) : Option Instr := (tableCode nbits w).map decode

end Sys2Proof
end

