-- ==== Sys2Proof/Config.lean ====
section
/-! DEFINITION. The implementation parameters of R7, which the spec leaves open. They have no value here: nothing proved
about the model can rest on a particular capacity or width (D2, D7; log entries 1 and 2). -/

namespace Sys2Proof

/-- `RX_CAPACITY`, written `N`: the size of the receive buffer in bytes, any natural number (R7, D2). OPEN in the spec. -/
opaque Config.rxCapacity : Nat

/-- `LEN_W` less one. OPEN in the spec (R7, D7). -/
opaque Config.lenWLessOne : Nat

/-- `LEN_W`: the width of `payload_len`, `out_capacity` and `enc_len`, a natural number at least 1 (R7). -/
def Config.lenW : Nat := Config.lenWLessOne + 1

end Sys2Proof
end

