-- ==== Sys2Proof/Machine/State.lean ====
section
/-! DEFINITION. The state as plain data: the block's own record (R29), the host-owned transmit buffer (R42), the results
last driven on the two ports (R70), the observation of the run (R177), the host's operations still to come (R21) and the
parameters (R7); the stops; and the state right after power-on. -/

namespace Sys2Proof.Machine

/-- A byte array: (index, byte) pairs, indices strictly rising. An index that is not listed holds no value (R25, R28). -/
abbrev Memory := List Host.Cell

/-- The decoder's state-machine register (R23). -/
inductive Mode where
  /-- Normal byte copy. -/
  | decoding
  /-- The previous byte was the escape marker. -/
  | escapeHandling
  deriving DecidableEq, Repr

/-- The outcome of one ON_BYTE (R66). -/
inductive RxOutcome where
  | inProgress | frameComplete | overflow | protocolError
  deriving DecidableEq, Repr

/-- The result of one ENCODE (R67). -/
inductive EncResult where
  | ok (encLen : Nat)
  | rejected
  deriving DecidableEq, Repr

/-- One thing the host does to the block: present an operation, or apply power-on reset (R70, R175). -/
inductive HostInput where
  | op (t : Transaction)
  | por
  deriving DecidableEq, Repr

/-- The block's whole architectural state (R20, R29): `mode`, `write_index`, `RX`. -/
structure Decoder where
  mode : Mode
  wi : Nat
  rx : Memory
  deriving DecidableEq, Repr

/-- The machine's state. -/
structure State where
  /-- `RX_CAPACITY = N` (R7). A parameter: no step changes it (log entry 1). -/
  rxCapacity : Nat
  /-- `LEN_W` (R7). A parameter: no step changes it (log entry 2). -/
  lenW : Nat
  /-- The block's own state (R29). -/
  dec : Decoder
  /-- The host-owned transmit buffer `TX` (R42). -/
  tx : Memory
  /-- `rx_outcome`: what the last receive-port operation drove, `none` where nothing drives it (R70, R105). -/
  rxOutcome : Option RxOutcome
  /-- `frame_valid` with `frame_len` and `frame_data`: the frame this step's ON_BYTE delivered, "for this ON_BYTE only"
  (R70, R102): every step begins with none. -/
  frame : Option (List Byte)
  /-- `enc_ok` with `enc_len`: what the last ENCODE drove (R67, R70). -/
  encResult : Option EncResult
  /-- The bytes the ENCODE in progress has written so far, so that R122's `j` is its length. The model's own field, empty
  between operations: the encoder holds no state (R22; log entry 5). -/
  encOut : List Byte
  /-- Observation: the ON_BYTE outcomes, oldest first (R177). -/
  outcomes : List RxOutcome
  /-- Observation: the `emit Frame(s)` events, oldest first, each with the index of its ON_BYTE (R12, R177). -/
  frames : List (Nat × List Byte)
  /-- Observation: the ENCODE results with the bytes each wrote to `TX`, oldest first (R177). -/
  encodes : List (EncResult × List Byte)
  /-- The host's operations not yet performed, next one first (R21, R48). -/
  pending : List HostInput
  /-- The index of the next operation in the host's sequence, which stands in for a program counter (R21, D31). -/
  pos : Nat
  deriving DecidableEq, Repr

/-- The block has no fault (R144: "the block has no fault, halt or stuck state"): there is no constructor. -/
inductive Fault where
  deriving DecidableEq, Repr

/-- Why the model gives an operation no meaning: the three refusals R144 lists, and the host's own `notModelled`. -/
inductive Refusal where
  /-- An instruction with no meaning yet: raised by an arm of `exec`, by none in this model. Safe: the run stops. -/
  | notModelled (mnemonic : String)
  /-- The command word `op = 0b11`: raised by RESERVED (R69(a)). Safe: the spec gives it no effect. -/
  | reservedOp
  /-- `PAY` and `TX` share storage: raised by ENCODE (R43, R129(f)). Safe: the spec refuses it. -/
  | payTxOverlap
  /-- A read of `RX` outside `[0, wi)` or of a cell that holds no value (R41): raised by frame delivery, and only in a state
  that breaks R26(b), which no run reaches. Safe: no claim can depend on a stale byte. -/
  | rxUnreadable
  deriving DecidableEq, Repr

/-- The initial state of the decoder: `mode = Decoding`, `write_index = 0` (R28), with no cell of `RX` holding a value. -/
def Decoder.powerOn : Decoder := { mode := .decoding, wi := 0, rx := [] }

/-- The machine right after power-on (R28, R160): the decoder initial, no result driven, nothing observed, no operation
presented, the parameters at the values of the implementation. -/
def State.reset : State :=
  { rxCapacity := Config.rxCapacity
    lenW := Config.lenW
    dec := Decoder.powerOn
    tx := []
    rxOutcome := none
    frame := none
    encResult := none
    encOut := []
    outcomes := []
    frames := []
    encodes := []
    pending := []
    pos := 0 }

end Sys2Proof.Machine
end

