-- ==== Sys2Proof/Machine/Ops.lean ====
section
/-! DEFINITION. The named operations every meaning is built from: byte arrays, the reads and writes of `RX` and `TX`, the
results driven on the ports, the shared error recovery (R147) and power-on (R160). -/

namespace Sys2Proof.Machine

/-! ### Byte arrays -/

/-- The canonical form: indices strictly rising. (An unlisted index holds no value, so no entry can equal it.) -/
def Memory.wf : Memory → Bool
  | [] => true
  | [_] => true
  | (a, _) :: (b, y) :: m => decide (a < b) && Memory.wf ((b, y) :: m)

/-- `MemRead(S, i, 1)` where the cell holds a value (R11). -/
def Memory.read : Memory → Nat → Option Byte
  | [], _ => none
  | (a, x) :: m, i => if i = a then some x else Memory.read m i

/-- `MemWrite(S, i, 1, v)` (R11): the cell `i` holds `v`, every other cell as before, the canonical form kept. -/
def Memory.write : Memory → Nat → Byte → Memory
  | [], i, v => [(i, v)]
  | (a, x) :: m, i, v =>
    if i < a then (i, v) :: (a, x) :: m
    else if i = a then (i, v) :: m
    else (a, x) :: Memory.write m i v

/-! ### The receive buffer -/

/-- A read of `RX`: refused outside `[0, wi)` (R25, R41). -/
def Decoder.rxRead (d : Decoder) (i : Nat) : Option Byte :=
  if i < d.wi then d.rx.read i else none

/-- `k` bytes of `RX` from index `i` up, in index order. -/
def Decoder.rxBytes (d : Decoder) (i : Nat) : Nat → Option (List Byte)
  | 0 => some []
  | k + 1 =>
    match d.rxRead i, Decoder.rxBytes d (i + 1) k with
    | some b, some bs => some (b :: bs)
    | _, _ => none

/-- The frame in `RX[0:wi)` (R102), where every cell of it holds a value. -/
def Decoder.frame (d : Decoder) : Option (List Byte) := d.rxBytes 0 d.wi

/-- `reset()` (R104): `RX` is not written. -/
def Decoder.reset (d : Decoder) : Decoder := { d with mode := .decoding, wi := 0 }

/-! ### The receive port's results -/

/-- `frame_valid = 0`. It is 1 exactly on an ON_BYTE that completes a frame (R70, R102), so every step begins with this,
whichever port it serves, and so does a step that waits. -/
def lowerFrameValid (s : State) : State := { s with frame := none }

/-- The outcome of an ON_BYTE on `rx_outcome`, with no frame. -/
def driveOutcome (o : RxOutcome) (s : State) : State :=
  { s with rxOutcome := some o, frame := none, outcomes := s.outcomes ++ [o] }

/-- `InProgress`: the state becomes the decoder's, and nothing further (R101). -/
def accept (d : Decoder) (s : State) : State := { driveOutcome .inProgress s with dec := d }

/-- Error entry, recovery and return in one (R103, R147, R149): nothing is saved, the frame in progress is discarded by
`reset()`, and the outcome `o` is on the port. Shared by `Overflow` (R141) and `ProtocolError` (R142). -/
def raiseError (o : RxOutcome) (s : State) : State := { driveOutcome o s with dec := s.dec.reset }

/-- `emit Frame(f)` and then `reset()` (R102): the event carries the index of this ON_BYTE (R177). -/
def emitFrame (f : List Byte) (s : State) : State :=
  { driveOutcome .frameComplete s with
    dec := s.dec.reset
    frame := some f
    frames := s.frames ++ [(s.outcomes.length, f)] }

/-- RESET: `reset()`, with no event and no outcome (R105). -/
def resetPort (s : State) : State := { s with dec := s.dec.reset, rxOutcome := none, frame := none }

/-! ### The send port -/

/-- Start of an accepted ENCODE: `j = 0` (R122). -/
def beginEncode (s : State) : State := { s with encOut := [] }

/-- `TX[j] <- v; j <- j + 1` (R122). -/
def emitByte (v : Byte) (s : State) : State :=
  { s with tx := s.tx.write s.encOut.length v, encOut := s.encOut ++ [v] }

/-- `return Ok(j)` (R122): the result is driven and observed, and the encoder holds nothing afterwards (R22). -/
def finishEncode (s : State) : State :=
  { s with
    encResult := some (.ok s.encOut.length)
    encodes := s.encodes ++ [(.ok s.encOut.length, s.encOut)]
    encOut := [] }

/-- `raise EncodeRejected()` (R143): no byte of `TX` is written and nothing needs recovery. -/
def rejectEncode (s : State) : State :=
  { s with encResult := some .rejected, encodes := s.encodes ++ [(.rejected, [])] }

/-! ### Power-on and the host's sequence -/

/-- Power-on reset applied to a running machine (R160): the decoder is initial, `RX` holds no value, no ENCODE is in flight,
the receive port drives nothing. The send port's results and `TX` are unaffected (R162), and what was observed stays. -/
def powerOn (s : State) : State :=
  { s with dec := Decoder.powerOn, rxOutcome := none, frame := none, encOut := [] }

/-- The machine with the host's next input taken, `rest` still to come (R21), and no frame delivered yet (R70). -/
def takeInput (rest : List HostInput) (s : State) : State :=
  { lowerFrameValid s with pending := rest, pos := s.pos + 1 }

/-- The host presents an input ahead of those pending. -/
def present (h : HostInput) (s : State) : State := { s with pending := h :: s.pending }

end Sys2Proof.Machine
end

