-- ==== Sys2Proof/Machine/Operands.lean ====
section
/-! DEFINITION. Operand assembly (R68): the decode key, the lengths of an ENCODE and the capacity test over them, and the
width of `write_index`. -/

namespace Sys2Proof.Machine

/-- The 1-bit encoding of `mode` (R23). -/
def Mode.code : Mode → BitVec 1
  | .decoding => 0#1
  | .escapeHandling => 1#1

/-- The mode a key's bit 8 names (R63). -/
def modeOfKey (k : Key) : Mode := if keyMode k = 0#1 then .decoding else .escapeHandling

/-- The decode key `{mode, b}` (R63). -/
def key (m : Mode) (b : Byte) : Key := m.code ++ b

/-- `2*L + 2 > C`, on unbounded naturals, so that it cannot wrap (R68, R123). -/
def encodeTooLarge (a : EncArgs) : Bool := decide (2 * a.pay.length + 2 > a.outCapacity)

/-- `IDX_W`: the smallest `w` with `2^w > N` (R7, D3). -/
def idxW (n : Nat) : Nat := if n = 0 then 0 else n.log2 + 1

end Sys2Proof.Machine
end

