-- ==== Sys2Proof/Machine/Flags.lean ====
section
/-! DEFINITION. The codes of the results on the port signals (R66, R67, R70). The block keeps no flags in state (R30): these
are read off the results that stand in `State`. -/

namespace Sys2Proof.Machine

/-- `rx_outcome[1:0]` (R66). -/
def RxOutcome.code : RxOutcome → BitVec 2
  | .inProgress => 0b00#2
  | .frameComplete => 0b01#2
  | .overflow => 0b10#2
  | .protocolError => 0b11#2

/-- `enc_ok` (R67). -/
def EncResult.encOk : EncResult → BitVec 1
  | .ok _ => 1#1
  | .rejected => 0#1

/-- `enc_len` as a number: 0 when Rejected, which the host must not read as a count (R67). -/
def EncResult.encLen : EncResult → Nat
  | .ok n => n
  | .rejected => 0

/-- The signal `rx_outcome`, where an ON_BYTE drives it (R70). -/
def State.rxOutcomeSignal (s : State) : Option (BitVec 2) := s.rxOutcome.map RxOutcome.code

/-- The signal `frame_valid` (R70): 1 after a step exactly where the step was an ON_BYTE that completed a frame. -/
def State.frameValid (s : State) : BitVec 1 := if s.frame.isSome then 1#1 else 0#1

/-- The signal `frame_len`, `IDX_W` bits, valid with `frame_valid` (R70). -/
def State.frameLen (s : State) : Option (BitVec (idxW s.rxCapacity)) :=
  s.frame.map fun f => BitVec.ofNat _ f.length

/-- The signal `enc_ok`, where an ENCODE drives it (R70). -/
def State.encOkSignal (s : State) : Option (BitVec 1) := s.encResult.map EncResult.encOk

/-- The signal `enc_len`, `LEN_W` bits (R67, R70). -/
def State.encLenSignal (s : State) : Option (BitVec s.lenW) :=
  s.encResult.map fun r => BitVec.ofNat _ r.encLen

end Sys2Proof.Machine
end

