-- ==== Sys2Proof/Machine/Decoder.lean ====
section
/-! DEFINITION. The per-byte transition (R80 to R88): each row as a pure function on the decoder's state, the write step they
share, and the meaning of each DKEY row of the opcode table, which is the ON_BYTE that runs that row (R100). A row's
meaning does not test the mode: choosing the row is the key's business (R80; log entry 8). -/

namespace Sys2Proof.Machine

/-! ### The rows as R81 to R87 write them -/

/-- The write step (R86): nothing is written to a full buffer. The test is `N ≤ wi`, which on the legal values
`wi ≤ N` is R86's `wi == N` (log entry 7). -/
def put (n : Nat) (d : Decoder) (v : Byte) : RxOutcome × Decoder :=
  if n ≤ d.wi then (.overflow, d)
  else (.inProgress, { mode := .decoding, wi := d.wi + 1, rx := d.rx.write d.wi v })

/-- Row `D.END` (R81). -/
def decDEnd (d : Decoder) : RxOutcome × Decoder :=
  if 0 < d.wi then (.frameComplete, d) else (.inProgress, d)

/-- Row `D.ESC` (R82). -/
def decDEsc (d : Decoder) : RxOutcome × Decoder := (.inProgress, { d with mode := .escapeHandling })

/-- Row `D.DATA` (R83). -/
def decDData (n : Nat) (d : Decoder) (b : Byte) : RxOutcome × Decoder := put n d b

/-- Row `E.ESC_END` (R84). -/
def decEEscEnd (n : Nat) (d : Decoder) : RxOutcome × Decoder := put n d END

/-- Row `E.ESC_ESC` (R85). -/
def decEEscEsc (n : Nat) (d : Decoder) : RxOutcome × Decoder := put n d ESC

/-- Row `E.INVALID` (R87). -/
def decEInvalid (d : Decoder) : RxOutcome × Decoder := (.protocolError, d)

/-- `dec(st, b)` (R80): the row the key `{st.mode, b}` selects. -/
def dec (n : Nat) (d : Decoder) (b : Byte) : RxOutcome × Decoder :=
  match rowOfKey (key d.mode b) with
  | .dEnd => decDEnd d
  | .dEsc => decDEsc d
  | .dData => decDData n d b
  | .eEscEnd => decEEscEnd n d
  | .eEscEsc => decEEscEsc n d
  | .eInvalid => decEInvalid d

/-! ### The assembler's part (R100) -/

/-- `FrameComplete`: deliver `RX[0:wi)`, then reset (R102). -/
def deliver (s : State) : Host.Outcome State Fault Refusal :=
  match s.dec.frame with
  | some f => .next (emitFrame f s)
  | none => .refused .rxUnreadable

/-- What the assembler does with the outcome of a row (R100 to R103). -/
def assemble (r : RxOutcome × Decoder) (s : State) : Host.Outcome State Fault Refusal :=
  match r.1 with
  | .inProgress => .next (accept r.2 s)
  | .frameComplete => deliver s
  | .overflow => .next (raiseError .overflow s)
  | .protocolError => .next (raiseError .protocolError s)

/-- The write step with the assembler's part, for the byte `v` a row stores: it always goes on (R86, R101, R103). -/
def putByte (v : Byte) (s : State) : State :=
  match put s.rxCapacity s.dec v with
  | (.inProgress, d) => accept d s
  | (_, _) => raiseError .overflow s

/-! ### The meanings of the DKEY rows -/

/-- `D.END` (R81): a frame delimiter in Decoding mode. -/
def execDEnd (s : State) : Host.Outcome State Fault Refusal := assemble (decDEnd s.dec) s

/-- `D.ESC` (R82): an escape marker in Decoding mode. -/
def execDEsc (s : State) : Host.Outcome State Fault Refusal := assemble (decDEsc s.dec) s

/-- `D.DATA` (R83): the byte is stored unchanged. -/
def execDData (b : Byte) (s : State) : Host.Outcome State Fault Refusal := .next (putByte b s)

/-- `E.ESC_END` (R84): the byte stored is `END`. -/
def execEEscEnd (s : State) : Host.Outcome State Fault Refusal := .next (putByte END s)

/-- `E.ESC_ESC` (R85): the byte stored is `ESC`. -/
def execEEscEsc (s : State) : Host.Outcome State Fault Refusal := .next (putByte ESC s)

/-- `E.INVALID` (R87): always ProtocolError, whatever the byte and however full the buffer. -/
def execEInvalid (_b : Byte) (s : State) : Host.Outcome State Fault Refusal := assemble (decEInvalid s.dec) s

end Sys2Proof.Machine
end

