-- ==== Sys2Proof/Machine/Receive.lean ====
section
/-! DEFINITION. The receive port's operations: ON_BYTE (R100) and RESET (R105). -/

namespace Sys2Proof.Machine

/-- `ON_BYTE b` (R100): the row that the key `{mode, b}` selects (R63, R80), with the assembler's part. -/
def execOnByte (b : Byte) (s : State) : Host.Outcome State Fault Refusal :=
  match rowOfKey (key s.dec.mode b) with
  | .dEnd => execDEnd s
  | .dEsc => execDEsc s
  | .dData => execDData b s
  | .eEscEnd => execEEscEnd s
  | .eEscEsc => execEEscEsc s
  | .eInvalid => execEInvalid b s

/-- `RESET` (R105); `cmd[7:0]` is ignored (R69(e)). -/
def execReset (_ignored : Byte) (s : State) : Host.Outcome State Fault Refusal := .next (resetPort s)

/-- The reserved word `op = 0b11` (R69(a)): "The model refuses it: it has no meaning, and it changes no state." -/
def execReserved (_ignored : Byte) (_s : State) : Host.Outcome State Fault Refusal := .refused .reservedOp

end Sys2Proof.Machine
end

