-- ==== Sys2Proof/Machine/Send.lean ====
section
/-! DEFINITION. The send port's operation ENCODE (R120 to R130) and its per-byte rows (R124 to R126), each with its output
bytes; and `wire`, the wire form R122 names. -/

namespace Sys2Proof.Machine

/-! ### The output bytes of the rows (R64) -/

/-- `X.END` emits `ESC, ESC_END` (R124). -/
def xEndBytes : List Byte := [ESC, ESC_END]

/-- `X.ESC` emits `ESC, ESC_ESC` (R125). -/
def xEscBytes : List Byte := [ESC, ESC_ESC]

/-- `X.DATA` emits the byte unchanged (R126). -/
def xDataBytes (p : Byte) : List Byte := [p]

/-- The output bytes of the row a payload byte selects. -/
def escaped (p : Byte) : List Byte :=
  match rowOfByte p with
  | .xEnd => xEndBytes
  | .xEsc => xEscBytes
  | .xData => xDataBytes p

/-- `wire(PAY)`: one leading `END`, then every payload byte escaped (R122). -/
def wire (pay : List Byte) : List Byte := END :: pay.flatMap escaped

/-! ### The rows and the loop -/

/-- `TX` written at rising indices, one byte after another. -/
def emitBytes : List Byte → State → State
  | [], s => s
  | v :: vs, s => emitBytes vs (emitByte v s)

/-- The loop `for i in 0 .. L-1` over the payload (R122). -/
def encodeLoop : List Byte → State → State
  | [], s => s
  | p :: ps, s => encodeLoop ps (emitBytes (escaped p) s)

/-- `X.END` (R124). -/
def execXEnd (s : State) : Host.Outcome State Fault Refusal := .next (emitBytes xEndBytes s)

/-- `X.ESC` (R125). -/
def execXEsc (s : State) : Host.Outcome State Fault Refusal := .next (emitBytes xEscBytes s)

/-- `X.DATA` (R126). -/
def execXData (p : Byte) (s : State) : Host.Outcome State Fault Refusal := .next (emitBytes (xDataBytes p) s)

/-- `ENCODE PAY, C` (R122): an overlap is refused (R43), a payload too large is rejected with nothing written (R123), and
every other one is written to `TX` with a leading `END` and no trailing one (R128). -/
def execEncode (_ignored : Byte) (a : EncArgs) (s : State) : Host.Outcome State Fault Refusal :=
  if a.overlap then .refused .payTxOverlap
  else if encodeTooLarge a then .next (rejectEncode s)
  else .next (finishEncode (encodeLoop a.pay (emitByte END (beginEncode s))))

end Sys2Proof.Machine
end

