-- ==== Sys2Proof/Machine/Dispatch.lean ====
section
/-! DEFINITION. The one dispatch from instructions to meanings. -/

namespace Sys2Proof.Machine

def exec (i : Instr) (s : State) : Host.Outcome State Fault Refusal :=
  match i with
  | .onByte b => Sys2Proof.Machine.execOnByte b s
  | .encode ig a => Sys2Proof.Machine.execEncode ig a s
  | .reset ig => Sys2Proof.Machine.execReset ig s
  | .reserved ig => Sys2Proof.Machine.execReserved ig s
  | .dEnd => Sys2Proof.Machine.execDEnd s
  | .dEsc => Sys2Proof.Machine.execDEsc s
  | .dData b => Sys2Proof.Machine.execDData b s
  | .eEscEnd => Sys2Proof.Machine.execEEscEnd s
  | .eEscEsc => Sys2Proof.Machine.execEEscEsc s
  | .eInvalid b => Sys2Proof.Machine.execEInvalid b s
  | .xEnd => Sys2Proof.Machine.execXEnd s
  | .xEsc => Sys2Proof.Machine.execXEsc s
  | .xData p => Sys2Proof.Machine.execXData p s

end Sys2Proof.Machine
end

