-- ==== Sys2Proof/Machine/Step.lean ====
section
/-! DEFINITION. One step: the host's next input is taken and performed (R21, R48), or the block keeps its state while it
waits (R107, R178). In both, a frame of an earlier step is valid no longer (R70). -/

namespace Sys2Proof.Machine

/-- One operation, power-on, or no input at all (log entry 4). -/
def step (s : State) : Host.Outcome State Fault Refusal :=
  match s.pending with
  | [] => .next (lowerFrameValid s)
  | .por :: rest => .next (powerOn (takeInput rest s))
  | .op t :: rest => exec (decodeTransaction t) (takeInput rest s)

/-- The state whose next step runs a word of the opcode table. A CMD is presented as it is. A DKEY `{m, b}` is no
transaction: its row runs when the mode is `m` and the host presents `ON_BYTE b`. An EBYTE's row runs inside the ENCODE
of that one byte, with the capacity it needs (log entry 9). -/
def State.withFetchWord (s : State) (nbits w : Nat) : State :=
  match tableCode nbits w with
  | some (.cmd t) => present (.op t) s
  | some (.key k) =>
    present (.op { cmd := cmdWord 0b00#2 (keyByte k), args := EncArgs.absent })
      { s with dec := { s.dec with mode := modeOfKey k } }
  | some (.encByte p) =>
    present (.op { cmd := cmdWord 0b01#2 0x00#8, args := { pay := [p], outCapacity := 4, overlap := false } }) s
  | none => s

end Sys2Proof.Machine
end

