-- ==== Sys2Proof/Safety.lean ====
section
/-! DEFINITION. The terms in which claims about the block are made: the invariant of R26, R70, R108 and R110; feeding bytes
to the receive port (R71); and when two receive states look alike from outside `RX[wi:N)` (R106). -/

namespace Sys2Proof.Machine

/-- What every reachable state satisfies. -/
structure BlockInv (s : State) : Prop where
  /-- `0 ≤ wi ≤ N` (R26(a)). -/
  wi_le : s.dec.wi ≤ s.rxCapacity
  /-- `RX` is in canonical form. -/
  rx_wf : Memory.wf s.dec.rx = true
  /-- `RX` has the indices `0..N-1` only (R40). -/
  rx_inside : ∀ i, s.rxCapacity ≤ i → s.dec.rx.read i = none
  /-- Every cell below `wi` was written (R26(b)). -/
  rx_held : ∀ i, i < s.dec.wi → (s.dec.rx.read i).isSome = true
  /-- `TX` is in canonical form. -/
  tx_wf : Memory.wf s.tx = true
  /-- The encoder holds no state between operations (R22). -/
  enc_idle : s.encOut = []
  /-- After an outcome that ends a frame, the decoder is in its initial state (R26(c), R110). -/
  between : ∀ o, s.rxOutcome = some o → o ≠ .inProgress → s.dec.mode = .decoding ∧ s.dec.wi = 0
  /-- `frame_valid` is 1 only where the last outcome is `FrameComplete` (R70; the other direction is a matter of one step,
  since the next step lowers it). -/
  valid : s.frame.isSome = true → s.rxOutcome = some .frameComplete
  /-- A delivered frame has 1 to `N` bytes (R108). -/
  events : ∀ e ∈ s.frames, e.1 < s.outcomes.length ∧ 1 ≤ e.2.length ∧ e.2.length ≤ s.rxCapacity
  /-- `LEN_W ≥ 1` (R7). -/
  lenW_pos : 1 ≤ s.lenW

/-- The decoder's initial state, whatever `RX` holds: `mode = Decoding`, `write_index = 0` (R14, R28). -/
def Decoder.initial (d : Decoder) : Prop := d.mode = .decoding ∧ d.wi = 0

/-- The byte a received byte makes the decoder write, where it writes one (R83 to R85). -/
def storedByte (m : Mode) (b : Byte) : Option Byte :=
  match m with
  | .decoding => if b = END ∨ b = ESC then none else some b
  | .escapeHandling => if b = ESC_END then some END else if b = ESC_ESC then some ESC else none

/-- `FEED [b0, b1, ...]`: ON_BYTE for each byte in turn (R71). -/
def feed : List Byte → State → Host.Outcome State Fault Refusal
  | [], s => .next s
  | b :: bs, s =>
    match exec (.onByte b) s with
    | .next t => feed bs t
    | .fault r => .fault r
    | .refused r => .refused r

/-- The host's inputs that present these bytes, one ON_BYTE each (R61, R71). -/
def byteInputs (bs : List Byte) : List HostInput :=
  bs.map fun b => .op { cmd := cmdWord 0b00#2 b, args := EncArgs.absent }

/-- Two machines whose receive ports differ at most in `RX` outside `[0, wi)` (R25, R106). -/
def SameReceive (s t : State) : Prop :=
  s.rxCapacity = t.rxCapacity ∧ s.dec.mode = t.dec.mode ∧ s.dec.wi = t.dec.wi ∧
    ∀ i, i < s.dec.wi → s.dec.rx.read i = t.dec.rx.read i

end Sys2Proof.Machine
end

