-- ==== Sys2Proof/Certificates/Slice0/Obligations.lean ====
section
/-! DEFINITION. The statements for the provers. Each docstring names the rule of the spec it formalises. -/

open Sys2Proof Sys2Proof.Machine

/-! ### Encodings -/

/-- R61, R63, R64: no bit of any encoding is dropped. -/
def Obligations.DecodeOfEncodedInstruction : Prop :=
  ∀ (lenW : Nat) (i : Instr), i.wf lenW = true → decode (encode i) = i

/-- The other direction: every decode key, every payload byte and every command word has one meaning. The operands of an
ENCODE are kept; the other operations have none (R61). -/
def Obligations.EncodeOfDecodedWord : Prop :=
  (∀ k : Key, encode (decodeKey k) = .key k) ∧
  (∀ p : Byte, encode (decodeEncByte p) = .encByte p) ∧
  ∀ (c : CmdWord) (a : EncArgs), encode (decodeTransaction { cmd := c, args := a }) =
    .cmd { cmd := c, args := if opField c = 0b01#2 then a else EncArgs.absent }

/-- R61, R69(a), R72 (the word is the spec's decision D19, log entry 16): the field `op` selects the operation, and `b` or the ignored byte is `cmd[7:0]`. -/
def Obligations.CommandWordSelectsOneOperation : Prop :=
  ∀ (b : Byte) (a : EncArgs),
    decodeTransaction { cmd := 0b00#2 ++ b, args := a } = .onByte b ∧
    decodeTransaction { cmd := 0b01#2 ++ b, args := a } = .encode b a ∧
    decodeTransaction { cmd := 0b10#2 ++ b, args := a } = .reset b ∧
    decodeTransaction { cmd := 0b11#2 ++ b, args := a } = .reserved b

/-- R63 (the 1-bit code of `mode` is the spec's decision D5, log entry 16): the key is `{mode, b}`; the first row in priority order whose `(k & mask) == match` selects; every key selects
exactly one row; and ON_BYTE behaves as the row its key selects. -/
def Obligations.DecodeTableRowsInPriorityOrder : Prop :=
  let exact : List (Key × Key × DRow) :=
    [(0x0C0#9, 0x1FF#9, .dEnd), (0x0DB#9, 0x1FF#9, .dEsc), (0x1DC#9, 0x1FF#9, .eEscEnd), (0x1DD#9, 0x1FF#9, .eEscEsc)]
  let others : List (Key × Key × DRow) := [(0x000#9, 0x100#9, .dData), (0x100#9, 0x100#9, .eInvalid)]
  (∀ k : Key,
    (((exact ++ others).find? fun r => k &&& r.2.1 == r.1).map fun r => r.2.2) = some (rowOfKey k) ∧
    (exact.countP fun r => k &&& r.2.1 == r.1) ≤ 1 ∧ (others.countP fun r => k &&& r.2.1 == r.1) = 1) ∧
  (∀ b : Byte, key .decoding b = 0#1 ++ b ∧ key .escapeHandling b = 1#1 ++ b) ∧
  ∀ (s : State) (b : Byte), exec (.onByte b) s = exec ((rowOfKey (key s.dec.mode b)).instr b) s

/-- R64: the encode table with its output bytes, in priority order. -/
def Obligations.EncodeTableRowsInPriorityOrder : Prop :=
  ∀ p : Byte,
    let table : List (Byte × Byte × XRow × List Byte) :=
      [(0xC0#8, 0xFF#8, .xEnd, [0xDB#8, 0xDC#8]), (0xDB#8, 0xFF#8, .xEsc, [0xDB#8, 0xDD#8]), (0x00#8, 0x00#8, .xData, [p])]
    ((table.find? fun r => p &&& r.2.1 == r.1).map fun r => r.2.2) = some (rowOfByte p, escaped p)

/-- Words written out from R61, R63, R64 and R71 decode to the instructions they stand for. -/
def Obligations.SampleWordsDecode : Prop :=
  decode (.cmd { cmd := 0x041#10, args := EncArgs.absent }) = .onByte 0x41#8 ∧
  decode (.cmd { cmd := 0x100#10, args := { pay := [0x41#8], outCapacity := 6, overlap := false } }) =
    .encode 0x00#8 { pay := [0x41#8], outCapacity := 6, overlap := false } ∧
  decode (.cmd { cmd := 0x200#10, args := EncArgs.absent }) = .reset 0x00#8 ∧
  decode (.cmd { cmd := 0x3FF#10, args := EncArgs.absent }) = .reserved 0xFF#8 ∧
  decode (.key 0x0C0#9) = .dEnd ∧ decode (.key 0x0DC#9) = .dData 0xDC#8 ∧ decode (.key 0x1DC#9) = .eEscEnd ∧
  decode (.key 0x1C0#9) = .eInvalid 0xC0#8 ∧ decode (.encByte 0xDB#8) = .xEsc ∧ decode (.encByte 0xDC#8) = .xData 0xDC#8

/-! ### Steps, power-on and the invariant -/

/-- R21, R48: a step takes the host's next operation and performs the instruction its word decodes to. A frame of an earlier
step is valid no longer (R70). -/
def Obligations.StepPerformsTheDecodedOperation : Prop :=
  ∀ (s : State) (t : Transaction) (i : Instr) (rest : List HostInput),
    s.pending = .op t :: rest → decode (.cmd t) = i →
    step s = exec i { s with pending := rest, pos := s.pos + 1, frame := none }

/-- R107, R178: the block's state does not change while the block waits, and `frame_valid` is 0, since it is 1 on the
completing ON_BYTE only (R70). That a step with no input answers a next state is the model's choice (log entry 4). -/
def Obligations.WaitingStepKeepsTheState : Prop :=
  ∀ s : State, s.pending = [] → step s = .next { s with frame := none }

/-- R28, R160, R162 (the spec's decisions D14 and D15, log entries 10 and 13): power-on puts the decoder in the initial state
with no cell of `RX` holding a value, and leaves the send port as it is. That `rx_outcome` is no longer driven and that the
observation and the pending inputs stay is the model's reading (log entry 11). -/
def Obligations.PowerOnGivesTheInitialState : Prop :=
  ∀ (s : State) (rest : List HostInput), s.pending = .por :: rest →
    step s = .next { s with
      dec := { mode := .decoding, wi := 0, rx := [] }
      rxOutcome := none, frame := none, encOut := []
      pending := rest, pos := s.pos + 1 }

/-- R28, R162 (the spec's decisions D13, D14 and D15, log entries 12, 10 and 13): the power-on column for the state after
reset and for a power-on of a running machine, and the decoder-reset column for each of its four causes. No reset affects
the send port. That after an Overflow `wi = 0` and `RX` is unchanged, so that its byte does not start the next frame, is
D13. -/
def Obligations.EveryResetGivesTheInitialState : Prop :=
  (State.reset.dec.mode = .decoding ∧ State.reset.dec.wi = 0 ∧ ∀ i, State.reset.dec.rx.read i = none) ∧
  (∀ (s : State) (rest : List HostInput), s.pending = .por :: rest → ∃ t, step s = .next t ∧
    t.dec.mode = .decoding ∧ t.dec.wi = 0 ∧ (∀ i, t.dec.rx.read i = none) ∧
    t.tx = s.tx ∧ t.encResult = s.encResult ∧ t.encodes = s.encodes) ∧
  (∀ (s : State) (ig : Byte), ∃ t, exec (.reset ig) s = .next t ∧
    t.dec = { mode := .decoding, wi := 0, rx := s.dec.rx } ∧
    t.tx = s.tx ∧ t.encResult = s.encResult ∧ t.encOut = s.encOut ∧ t.encodes = s.encodes) ∧
  ∀ (s t : State) (b : Byte), exec (.onByte b) s = .next t →
    (t.rxOutcome = some .frameComplete ∨ t.rxOutcome = some .overflow ∨ t.rxOutcome = some .protocolError) →
    t.dec = { mode := .decoding, wi := 0, rx := s.dec.rx } ∧
    t.tx = s.tx ∧ t.encResult = s.encResult ∧ t.encOut = s.encOut ∧ t.encodes = s.encodes

/-- The invariant of R22, R26, R40, R70, R108, R110 is kept by every step that goes on, whatever the host presents. -/
def Obligations.StepKeepsTheInvariant : Prop := ∀ s t : State, BlockInv s → step s = .next t → BlockInv t

/-- The machine after reset meets the invariant. -/
def Obligations.ResetMeetsTheInvariant : Prop := BlockInv State.reset

/-- A step takes at most one input of the host, in order, and changes no parameter (R7, R21, R48). -/
def Obligations.StepTakesOneInputAndKeepsTheParameters : Prop :=
  ∀ s t : State, step s = .next t →
    t.rxCapacity = s.rxCapacity ∧ t.lenW = s.lenW ∧ t.pending = s.pending.tail ∧
    t.pos = s.pos + (if s.pending = [] then 0 else 1)

/-- R109, R144: from a state that meets the invariant a step always goes on, but for the reserved word and an ENCODE whose
`PAY` and `TX` overlap. -/
def Obligations.OnlyTheListedRefusalsStopARun : Prop :=
  ∀ s : State, BlockInv s →
    (∃ t, step s = .next t) ∨
    (∃ x rest, s.pending = .op x :: rest ∧ opField x.cmd = 0b11#2 ∧ step s = .refused .reservedOp) ∨
    (∃ x rest, s.pending = .op x :: rest ∧ opField x.cmd = 0b01#2 ∧ x.args.overlap = true ∧
      step s = .refused .payTxOverlap)

/-! ### The decoder's rows -/

/-- R81, R82, R83: the three rows of Decoding mode as the pure transition `dec`, each with the match and mask of its key. That
`dec` leaves its state as it was on FrameComplete and Overflow is the spec's decision D12 (R88, log entry 22), and the code of
`mode` in the keys is its decision D5 (log entry 16). -/
def Obligations.DecodingRowsOfTheTransition : Prop :=
  ∀ (n : Nat) (d : Decoder) (b : Byte), d.mode = .decoding →
    (b = 0xC0#8 → key d.mode b &&& 0x1FF#9 = 0x0C0#9 ∧ decodeKey (key d.mode b) = .dEnd ∧
      (0 < d.wi → dec n d b = (.frameComplete, d)) ∧ (d.wi = 0 → dec n d b = (.inProgress, d))) ∧
    (b = 0xDB#8 → key d.mode b &&& 0x1FF#9 = 0x0DB#9 ∧ decodeKey (key d.mode b) = .dEsc ∧
      dec n d b = (.inProgress, { d with mode := .escapeHandling })) ∧
    (b ≠ 0xC0#8 → b ≠ 0xDB#8 → key d.mode b &&& 0x100#9 = 0x000#9 ∧ decodeKey (key d.mode b) = .dData b ∧
      dec n d b = put n d b ∧ (d.wi < n → (dec n d b).1 = .inProgress) ∧ (d.wi = n → dec n d b = (.overflow, d)))

/-- R84, R85, R87: the three rows of EscapeHandling mode as the pure transition `dec`, each with the match and mask of its
key. `E.ESC_END` stores `0xC0` and `E.ESC_ESC` stores `0xDB`; `E.INVALID` writes nothing, at a full buffer too. That `dec`
leaves its state as it was on Overflow and ProtocolError is the spec's decision D12 (R88, log entry 22), and the code of
`mode` in the keys is its decision D5 (log entry 16). -/
def Obligations.EscapeHandlingRowsOfTheTransition : Prop :=
  ∀ (n : Nat) (d : Decoder) (b : Byte), d.mode = .escapeHandling →
    (b = 0xDC#8 → key d.mode b &&& 0x1FF#9 = 0x1DC#9 ∧ decodeKey (key d.mode b) = .eEscEnd ∧
      dec n d b = put n d 0xC0#8 ∧ (d.wi < n → (dec n d b).1 = .inProgress) ∧ (d.wi = n → dec n d b = (.overflow, d))) ∧
    (b = 0xDD#8 → key d.mode b &&& 0x1FF#9 = 0x1DD#9 ∧ decodeKey (key d.mode b) = .eEscEsc ∧
      dec n d b = put n d 0xDB#8 ∧ (d.wi < n → (dec n d b).1 = .inProgress) ∧ (d.wi = n → dec n d b = (.overflow, d))) ∧
    (b ≠ 0xDC#8 → b ≠ 0xDD#8 → key d.mode b &&& 0x100#9 = 0x100#9 ∧ decodeKey (key d.mode b) = .eInvalid b ∧
      dec n d b = (.protocolError, d))

/-- The ON_BYTE that runs row `D.END` (R81, R100, R102). The observation lists are the model's record (log entry 3). -/
def Obligations.RowDEndCompletesOrIsANoOp : Prop :=
  ∀ s : State, s.dec.mode = .decoding →
    exec (.onByte END) s = exec .dEnd s ∧
    (s.dec.wi = 0 →
      exec .dEnd s = .next { s with
        rxOutcome := some .inProgress, frame := none, outcomes := s.outcomes ++ [.inProgress] }) ∧
    (0 < s.dec.wi →
      ∀ f : List Byte, f.length = s.dec.wi → (∀ j, j < s.dec.wi → s.dec.rx.read j = f[j]?) →
        exec .dEnd s = .next { s with
          dec := { s.dec with mode := .decoding, wi := 0 }
          rxOutcome := some .frameComplete, frame := some f
          outcomes := s.outcomes ++ [.frameComplete]
          frames := s.frames ++ [(s.outcomes.length, f)] })

/-- The model's choice (log entry 10; R41 and D14 speak of indices at and above `wi` only): where a cell below `wi` holds no
value, delivery refuses to read it. No state that meets the invariant is such a state. That the row alone answers so in
EscapeHandling mode too is the choice of log entry 8. -/
def Obligations.DeliveryRefusesACellWithNoValue : Prop :=
  ∀ (s : State) (i : Nat), i < s.dec.wi → s.dec.rx.read i = none → exec .dEnd s = .refused .rxUnreadable

/-- The ON_BYTE that runs row `D.ESC` (R82, R101), at every `wi`, the full buffer included (record: log entry 3). -/
def Obligations.RowDEscOpensAnEscape : Prop :=
  ∀ s : State, s.dec.mode = .decoding →
    exec (.onByte ESC) s = exec .dEsc s ∧
    exec .dEsc s = .next { s with
      dec := { s.dec with mode := .escapeHandling }
      rxOutcome := some .inProgress, frame := none, outcomes := s.outcomes ++ [.inProgress] }

/-- The ON_BYTE that runs row `D.DATA` (R83, R86, R101, R103), for each of its 254 bytes, below the capacity and at it
(record: log entry 3). That the byte which overflows is not the first of the next frame (`wi = 0`, `RX` unchanged) is the
spec's decision D13 (log entry 12). -/
def Obligations.RowDDataStoresTheByte : Prop :=
  ∀ (s : State) (b : Byte), s.dec.mode = .decoding → b ≠ 0xC0#8 → b ≠ 0xDB#8 →
    exec (.onByte b) s = exec (.dData b) s ∧
    (s.dec.wi < s.rxCapacity →
      exec (.dData b) s = .next { s with
        dec := { mode := .decoding, wi := s.dec.wi + 1, rx := s.dec.rx.write s.dec.wi b }
        rxOutcome := some .inProgress, frame := none, outcomes := s.outcomes ++ [.inProgress] }) ∧
    (s.dec.wi = s.rxCapacity →
      exec (.dData b) s = .next { s with
        dec := { s.dec with mode := .decoding, wi := 0 }
        rxOutcome := some .overflow, frame := none, outcomes := s.outcomes ++ [.overflow] })

/-- The ON_BYTE that runs row `E.ESC_END` (R84, R86, R101, R103): `0xC0` is stored, not `0xDC` (record: log entry 3).
That the byte which overflows is not the first of the next frame is the spec's decision D13 (log entry 12). -/
def Obligations.RowEEscEndStoresEND : Prop :=
  ∀ s : State, s.dec.mode = .escapeHandling →
    exec (.onByte ESC_END) s = exec .eEscEnd s ∧
    (s.dec.wi < s.rxCapacity →
      exec .eEscEnd s = .next { s with
        dec := { mode := .decoding, wi := s.dec.wi + 1, rx := s.dec.rx.write s.dec.wi 0xC0#8 }
        rxOutcome := some .inProgress, frame := none, outcomes := s.outcomes ++ [.inProgress] }) ∧
    (s.dec.wi = s.rxCapacity →
      exec .eEscEnd s = .next { s with
        dec := { s.dec with mode := .decoding, wi := 0 }
        rxOutcome := some .overflow, frame := none, outcomes := s.outcomes ++ [.overflow] })

/-- The ON_BYTE that runs row `E.ESC_ESC` (R85, R86, R101, R103): `0xDB` is stored, not `0xDD` (record: log entry 3).
That the byte which overflows is not the first of the next frame is the spec's decision D13 (log entry 12). -/
def Obligations.RowEEscEscStoresESC : Prop :=
  ∀ s : State, s.dec.mode = .escapeHandling →
    exec (.onByte ESC_ESC) s = exec .eEscEsc s ∧
    (s.dec.wi < s.rxCapacity →
      exec .eEscEsc s = .next { s with
        dec := { mode := .decoding, wi := s.dec.wi + 1, rx := s.dec.rx.write s.dec.wi 0xDB#8 }
        rxOutcome := some .inProgress, frame := none, outcomes := s.outcomes ++ [.inProgress] }) ∧
    (s.dec.wi = s.rxCapacity →
      exec .eEscEsc s = .next { s with
        dec := { s.dec with mode := .decoding, wi := 0 }
        rxOutcome := some .overflow, frame := none, outcomes := s.outcomes ++ [.overflow] })

/-- The ON_BYTE that runs row `E.INVALID` (R87, R103), for each of its 254 bytes and at every `wi`: ProtocolError, nothing
written, no frame (record: log entry 3). -/
def Obligations.RowEInvalidIsAProtocolError : Prop :=
  ∀ (s : State) (b : Byte), s.dec.mode = .escapeHandling → b ≠ 0xDC#8 → b ≠ 0xDD#8 →
    exec (.onByte b) s = exec (.eInvalid b) s ∧
    exec (.eInvalid b) s = .next { s with
      dec := { s.dec with mode := .decoding, wi := 0 }
      rxOutcome := some .protocolError, frame := none, outcomes := s.outcomes ++ [.protocolError] }

/-- R86: the write step, below the capacity and at it, cell by cell; `RX[N]` is never written and `wi` never exceeds `N`. That
the state is as it was on Overflow is the spec's decision D12 (R88, log entry 22). -/
def Obligations.WriteStepWritesOneCellOrOverflows : Prop :=
  ∀ (n : Nat) (d : Decoder) (v : Byte),
    (d.wi = n → put n d v = (.overflow, d)) ∧
    (d.wi < n → ∃ rx', put n d v = (.inProgress, { mode := .decoding, wi := d.wi + 1, rx := rx' }) ∧
      d.wi + 1 ≤ n ∧ ∀ k, Memory.read rx' k = if k = d.wi then some v else d.rx.read k)

/-! ### ON_BYTE and RESET -/

/-- R100 as a whole next state (the record is the model's, log entry 3): ON_BYTE is `dec` and then the assembler's case on the outcome; from a state that meets the invariant it never
faults, never blocks and refuses no byte value. That an Overflow consumes its byte is the spec's decision D13 (log entry 12),
and the refusal where a cell below `wi` holds no value, in no state that meets the invariant, is the choice of log entry 10. -/
def Obligations.OnByteIsDecThenAssembler : Prop :=
  ∀ (s : State) (b : Byte),
    (∀ a : EncArgs, decodeTransaction { cmd := 0b00#2 ++ b, args := a } = .onByte b) ∧
    exec (.onByte b) s =
      (match dec s.rxCapacity s.dec b with
        | (.inProgress, d') =>
          .next { s with
            dec := d', rxOutcome := some .inProgress, frame := none, outcomes := s.outcomes ++ [.inProgress] }
        | (.frameComplete, _) =>
          (match s.dec.frame with
            | some f =>
              .next { s with
                dec := { s.dec with mode := .decoding, wi := 0 }
                rxOutcome := some .frameComplete, frame := some f
                outcomes := s.outcomes ++ [.frameComplete]
                frames := s.frames ++ [(s.outcomes.length, f)] }
            | none => .refused .rxUnreadable)
        | (.overflow, _) =>
          .next { s with
            dec := { s.dec with mode := .decoding, wi := 0 }
            rxOutcome := some .overflow, frame := none, outcomes := s.outcomes ++ [.overflow] }
        | (.protocolError, _) =>
          .next { s with
            dec := { s.dec with mode := .decoding, wi := 0 }
            rxOutcome := some .protocolError, frame := none, outcomes := s.outcomes ++ [.protocolError] }) ∧
    (BlockInv s → ∃ t, exec (.onByte b) s = .next t)

/-- R90 (derived in the spec): the summary table, with the state after ON_BYTE's reset. That an Overflow consumes its byte is
the spec's decision D13 (log entry 12). -/
def Obligations.DecoderSummaryTable : Prop :=
  ∀ (s : State) (b : Byte), BlockInv s → ∃ t, exec (.onByte b) s = .next t ∧
    (s.dec.mode = .decoding → b = 0xC0#8 → s.dec.wi = 0 →
      t.rxOutcome = some .inProgress ∧ t.dec = { mode := .decoding, wi := 0, rx := s.dec.rx }) ∧
    (s.dec.mode = .decoding → b = 0xC0#8 → 0 < s.dec.wi →
      t.rxOutcome = some .frameComplete ∧ t.dec = { mode := .decoding, wi := 0, rx := s.dec.rx }) ∧
    (s.dec.mode = .decoding → b = 0xDB#8 →
      t.rxOutcome = some .inProgress ∧ t.dec = { mode := .escapeHandling, wi := s.dec.wi, rx := s.dec.rx }) ∧
    (s.dec.mode = .decoding → b ≠ 0xC0#8 → b ≠ 0xDB#8 → s.dec.wi < s.rxCapacity →
      t.rxOutcome = some .inProgress ∧
      t.dec = { mode := .decoding, wi := s.dec.wi + 1, rx := s.dec.rx.write s.dec.wi b }) ∧
    (s.dec.mode = .decoding → b ≠ 0xC0#8 → b ≠ 0xDB#8 → s.dec.wi = s.rxCapacity →
      t.rxOutcome = some .overflow ∧ t.dec = { mode := .decoding, wi := 0, rx := s.dec.rx }) ∧
    (s.dec.mode = .escapeHandling → b = 0xDC#8 → s.dec.wi < s.rxCapacity →
      t.rxOutcome = some .inProgress ∧
      t.dec = { mode := .decoding, wi := s.dec.wi + 1, rx := s.dec.rx.write s.dec.wi 0xC0#8 }) ∧
    (s.dec.mode = .escapeHandling → b = 0xDD#8 → s.dec.wi < s.rxCapacity →
      t.rxOutcome = some .inProgress ∧
      t.dec = { mode := .decoding, wi := s.dec.wi + 1, rx := s.dec.rx.write s.dec.wi 0xDB#8 }) ∧
    (s.dec.mode = .escapeHandling → b = 0xDC#8 ∨ b = 0xDD#8 → s.dec.wi = s.rxCapacity →
      t.rxOutcome = some .overflow ∧ t.dec = { mode := .decoding, wi := 0, rx := s.dec.rx }) ∧
    (s.dec.mode = .escapeHandling → b ≠ 0xDC#8 → b ≠ 0xDD#8 →
      t.rxOutcome = some .protocolError ∧ t.dec = { mode := .decoding, wi := 0, rx := s.dec.rx })

/-- R102 (delivery as a snapshot is the spec's decision D11, log entry 14): the frame delivered is `RX[0], …, RX[wi-1]` in that order, on the port and as an event, before the reset. -/
def Obligations.DeliveredFrameIsTheBufferBelowTheIndex : Prop :=
  ∀ s : State, BlockInv s → s.dec.mode = .decoding → 0 < s.dec.wi → ∃ f t, exec (.onByte END) s = .next t ∧
    f.length = s.dec.wi ∧ 1 ≤ f.length ∧ f.length ≤ s.rxCapacity ∧ (∀ j, j < s.dec.wi → f[j]? = s.dec.rx.read j) ∧
    t.frame = some f ∧ t.frames = s.frames ++ [(s.outcomes.length, f)] ∧
    t.frameValid = 1#1 ∧ (t.frameLen.map BitVec.toNat) = some s.dec.wi ∧
    t.dec = { mode := .decoding, wi := 0, rx := s.dec.rx }

/-- R103 (that the byte which overflows is consumed is the spec's decision D13, log entry 12): an error emits no event, resets the decoder, consumes its byte, and changes nothing else. -/
def Obligations.ErrorsDiscardTheFrameAndReset : Prop :=
  ∀ (s t : State) (b : Byte) (o : RxOutcome), exec (.onByte b) s = .next t → t.rxOutcome = some o →
    o = .overflow ∨ o = .protocolError →
    t = { s with
      dec := { s.dec with mode := .decoding, wi := 0 }
      rxOutcome := some o, frame := none, outcomes := s.outcomes ++ [o] }

/-- R89 (derived in the spec): each byte has exactly one outcome, and when each of the three ends of a frame is it. -/
def Obligations.OneOutcomePerByte : Prop :=
  ∀ (s t : State) (b : Byte), BlockInv s → exec (.onByte b) s = .next t →
    ∃ o, t.rxOutcome = some o ∧ t.outcomes = s.outcomes ++ [o] ∧
      (o = .frameComplete ↔ s.dec.mode = .decoding ∧ b = END ∧ 0 < s.dec.wi) ∧
      (o = .protocolError ↔ s.dec.mode = .escapeHandling ∧ b ≠ ESC_END ∧ b ≠ ESC_ESC) ∧
      (o = .overflow ↔ s.dec.wi = s.rxCapacity ∧
        ((s.dec.mode = .decoding ∧ b ≠ END ∧ b ≠ ESC) ∨ (s.dec.mode = .escapeHandling ∧ (b = ESC_END ∨ b = ESC_ESC))))

/-- R105 (RESET as the host's operation is the spec's decision D16, log entry 21): RESET, at every value of the ignored byte. -/
def Obligations.ResetEndsAFrameSilently : Prop :=
  ∀ (s : State) (ig : Byte) (a : EncArgs),
    decodeTransaction { cmd := 0b10#2 ++ ig, args := a } = .reset ig ∧
    exec (.reset ig) s = .next { s with
      dec := { s.dec with mode := .decoding, wi := 0 }, rxOutcome := none, frame := none }

/-- R110 (derived in the spec): after any outcome that ends a frame, and after any RESET, the decoder is in its initial state.
For Overflow this rests on the spec's decision D13 (log entry 12). -/
def Obligations.IdempotentReset : Prop :=
  (∀ (s t : State) (b : Byte), exec (.onByte b) s = .next t →
    (t.rxOutcome = some .frameComplete ∨ t.rxOutcome = some .overflow ∨ t.rxOutcome = some .protocolError) →
    t.dec.mode = .decoding ∧ t.dec.wi = 0) ∧
  ∀ (s t : State) (ig : Byte), exec (.reset ig) s = .next t → t.dec.mode = .decoding ∧ t.dec.wi = 0

/-- R108 (derived in the spec): a delivered frame has 1 to `N` bytes; the wire form of the empty payload is a redundant delimiter. -/
def Obligations.DeliveredFramesAreNeverEmpty : Prop :=
  (∀ (s t : State) (b : Byte), BlockInv s → exec (.onByte b) s = .next t →
    (t.frames = s.frames ∧ t.frame = none) ∨
    ∃ f, t.frames = s.frames ++ [(s.outcomes.length, f)] ∧ t.frame = some f ∧ 1 ≤ f.length ∧ f.length ≤ s.rxCapacity) ∧
  (wire [] = [END] ∧ ∀ s : State, s.dec.initial → ∃ t, feed (wire []) s = .next t ∧ t.dec = s.dec ∧ t.frames = s.frames)

/-- R104: what `reset()` does, and that it is the only way `wi` decreases in an operation (power-on, R160, aside). A step
raises `wi` by at most one. That after an Overflow `wi = 0` and `RX` is unchanged, so that its byte does not start the next
frame, is the spec's decision D13 (log entry 12). -/
def Obligations.WriteIndexFallsOnlyByReset : Prop :=
  (∀ d : Decoder, d.reset = { mode := .decoding, wi := 0, rx := d.rx } ∧ d.reset.initial) ∧
  ∀ s t : State, step s = .next t → s.pending.head? ≠ some .por →
    t.dec.wi ≤ s.dec.wi + 1 ∧ (t.dec.wi < s.dec.wi → t.dec = s.dec.reset)

/-- Derived from R100 to R105: what `reset()` does, and the operations in which `wi` may decrease: but for power-on (R160), only
a RESET or an ON_BYTE whose outcome ends a frame, the operations that run `reset()`. That the decrease is `reset()` itself is
WriteIndexFallsOnlyByReset. -/
def Obligations.WriteIndexFallsOnlyWhereResetRuns : Prop :=
  (∀ d : Decoder, d.reset = { mode := .decoding, wi := 0, rx := d.rx } ∧ d.reset.initial) ∧
  ∀ s t : State, step s = .next t → s.pending.head? ≠ some .por → t.dec.wi < s.dec.wi →
    ∃ x rest, s.pending = .op x :: rest ∧
      ((∃ ig, decodeTransaction x = .reset ig) ∨
       ∃ b, decodeTransaction x = .onByte b ∧
        (t.rxOutcome = some .frameComplete ∨ t.rxOutcome = some .overflow ∨ t.rxOutcome = some .protocolError))

/-- R25: but for power-on, a step changes `RX` at most at index `wi`, only below the capacity, and then counts the byte. That an
Overflow leaves every cell, `RX[0]` among them, is the spec's decision D13 (log entry 12). -/
def Obligations.RxIsWrittenOnlyAtTheWriteIndex : Prop :=
  ∀ s t : State, step s = .next t → s.pending.head? ≠ some .por →
    (∀ i, i ≠ s.dec.wi → t.dec.rx.read i = s.dec.rx.read i) ∧
    (t.dec.rx.read s.dec.wi ≠ s.dec.rx.read s.dec.wi → s.dec.wi < s.rxCapacity ∧ t.dec.wi = s.dec.wi + 1)

/-- R7, R24: `wi` fits in `IDX_W` bits, the smallest width that holds `0..N`. -/
def Obligations.WriteIndexFitsTheSmallestWidth : Prop :=
  (∀ s : State, BlockInv s → s.dec.wi < 2 ^ idxW s.rxCapacity) ∧ ∀ n w : Nat, n < 2 ^ w → idxW n ≤ w

/-- R106: what the receive port does next does not depend on `RX` outside `[0, wi)`: two machines that differ only there
return the same outcomes and deliver the same frames on every byte stream, and stay alike. After a reset `wi = 0`, so no byte
from before it can reach a later frame. -/
def Obligations.StaleBytesNeverReachAFrame : Prop :=
  ∀ (bs : List Byte) (s t u : State), SameReceive s t → feed bs s = .next u →
    ∃ v os fs, feed bs t = .next v ∧ SameReceive u v ∧
      u.outcomes = s.outcomes ++ os ∧ v.outcomes = t.outcomes ++ os ∧
      (u.frames.map fun e => e.2) = (s.frames.map fun e => e.2) ++ fs ∧
      (v.frames.map fun e => e.2) = (t.frames.map fun e => e.2) ++ fs

/-- R48, R71: as many steps as there are bytes perform the ON_BYTEs the host has presented, in order. -/
def Obligations.StepsPerformTheFedBytes : Prop :=
  ∀ (bs : List Byte) (rest : List HostInput) (s : State), s.pending = byteInputs bs ++ rest →
    Host.Core.run Sys2Proof.core bs.length s = feed bs { s with pending := rest, pos := s.pos + bs.length }

/-! ### ENCODE -/

/-- R122: ENCODE's result and the bytes of `TX` it writes. Rejected: `enc_ok = 0`, `enc_len = 0`, nothing written. Accepted:
`TX[0]` is the leading `END`, then for each payload byte the bytes of its case at rising indices with no byte after them, and
the result is how many they are. That `TX` keeps its bytes beyond the output is the spec's decision D26 (log entry 20), not
R122's words. -/
def Obligations.EncodeResultAndBytes : Prop :=
  ∀ (s : State) (ig : Byte) (a : EncArgs), a.overlap = false → ∃ t, exec (.encode ig a) s = .next t ∧
    (2 * a.pay.length + 2 > a.outCapacity →
      t.encOkSignal = some 0#1 ∧ t.encLenSignal = some 0#t.lenW ∧ ∀ k, t.tx.read k = s.tx.read k) ∧
    (2 * a.pay.length + 2 ≤ a.outCapacity →
      let out := 0xC0#8 :: a.pay.flatMap fun p =>
        if p = 0xC0#8 then [0xDB#8, 0xDC#8] else if p = 0xDB#8 then [0xDB#8, 0xDD#8] else [p]
      t.encOkSignal = some 1#1 ∧ t.encResult = some (.ok out.length) ∧
      (∀ k, k < out.length → t.tx.read k = out[k]?) ∧ ∀ k, out.length ≤ k → t.tx.read k = s.tx.read k)

/-- Both ends of ENCODE as whole next states (R122, R121): accepted, it writes the wire form at `TX[0], TX[1], …`; rejected,
nothing. That an accepted ENCODE writes no other byte of `TX` is the spec's decision D26 (log entry 20); the list of results
is the model's record (log entry 3), and `encOut`, empty afterwards, is the model's own field (log entry 5). -/
def Obligations.EncodeWritesTheWireForm : Prop :=
  ∀ (s : State) (ig : Byte) (a : EncArgs), a.overlap = false →
    (2 * a.pay.length + 2 ≤ a.outCapacity → ∃ tx',
      exec (.encode ig a) s = .next { s with
        tx := tx', encResult := some (.ok (wire a.pay).length)
        encodes := s.encodes ++ [(.ok (wire a.pay).length, wire a.pay)], encOut := [] } ∧
      ∀ k, Memory.read tx' k = if k < (wire a.pay).length then (wire a.pay)[k]? else s.tx.read k) ∧
    (2 * a.pay.length + 2 > a.outCapacity →
      exec (.encode ig a) s = .next { s with
        encResult := some .rejected, encodes := s.encodes ++ [(.rejected, [])] })

/-- R123 (that the block checks is the spec's decision D8): rejected exactly when `2*L + 2 > C`, and then no byte of `TX` is written. -/
def Obligations.EncodeIsRejectedExactlyWhenTooLarge : Prop :=
  ∀ (s : State) (ig : Byte) (a : EncArgs), a.overlap = false → ∃ t, exec (.encode ig a) s = .next t ∧
    (t.encResult = some .rejected ↔ 2 * a.pay.length + 2 > a.outCapacity) ∧
    (t.encResult = some .rejected → ∀ k, t.tx.read k = s.tx.read k)

/-- R43, R129(f) (the spec's decision D10; the flag is the model's, log entry 6): an ENCODE whose `PAY` and `TX` overlap is refused, whatever its lengths. -/
def Obligations.OverlappingEncodeIsRefused : Prop :=
  ∀ (s : State) (ig : Byte) (a : EncArgs), a.overlap = true → exec (.encode ig a) s = .refused .payTxOverlap

/-- R127 (derived in the spec): the encoded length, its bounds, and that it fits in `LEN_W` bits where the capacity does. -/
def Obligations.EncodedLengthAndItsBounds : Prop :=
  ∀ (s : State) (ig : Byte) (a : EncArgs), a.overlap = false → 2 * a.pay.length + 2 ≤ a.outCapacity →
    ∃ t n, exec (.encode ig a) s = .next t ∧ t.encResult = some (.ok n) ∧
      n = 1 + a.pay.length + a.pay.count 0xC0#8 + a.pay.count 0xDB#8 ∧
      1 ≤ a.pay.length + 1 ∧ a.pay.length + 1 ≤ n ∧ n ≤ 2 * a.pay.length + 1 ∧ n < a.outCapacity ∧
      (a.outCapacity < 2 ^ s.lenW → (t.encLenSignal.map BitVec.toNat) = some n)

/-- R130 (derived in the spec): in the bytes an accepted ENCODE writes, `END` stands only at index 0, every `ESC` is followed by `ESC_END` or
`ESC_ESC`, and every payload `END` or `ESC` stands as its two-byte escape at its position. -/
def Obligations.EscapingIsCorrect : Prop :=
  ∀ (s t : State) (ig : Byte) (a : EncArgs) (n : Nat),
    exec (.encode ig a) s = .next t → t.encResult = some (.ok n) →
    t.tx.read 0 = some END ∧
    (∀ k, k < n → t.tx.read k = some END → k = 0) ∧
    (∀ k, k < n → t.tx.read k = some ESC →
      k + 1 < n ∧ (t.tx.read (k + 1) = some ESC_END ∨ t.tx.read (k + 1) = some ESC_ESC)) ∧
    (∀ i, a.pay[i]? = some END →
      t.tx.read (wire (a.pay.take i)).length = some ESC ∧ t.tx.read ((wire (a.pay.take i)).length + 1) = some ESC_END) ∧
    (∀ i, a.pay[i]? = some ESC →
      t.tx.read (wire (a.pay.take i)).length = some ESC ∧ t.tx.read ((wire (a.pay.take i)).length + 1) = some ESC_ESC)

/-- R121: the result and the bytes written depend on the operands alone, and the receive port is untouched. That every other
byte of `TX` is as before is the spec's decision D26 (log entry 20), which R121 does not say. -/
def Obligations.EncodeIsPure : Prop :=
  ∀ (s s' t : State) (ig ig' : Byte) (a : EncArgs), exec (.encode ig a) s = .next t →
    (∃ (t' : State) (r : EncResult) (w : List Byte), exec (.encode ig' a) s' = .next t' ∧
      t.encResult = some r ∧ t'.encResult = some r ∧
      (∀ k, k < w.length → t.tx.read k = w[k]? ∧ t'.tx.read k = w[k]?) ∧
      ∀ k, w.length ≤ k → t.tx.read k = s.tx.read k ∧ t'.tx.read k = s'.tx.read k) ∧
    t.dec = s.dec ∧ t.rxOutcome = s.rxOutcome ∧ t.frame = s.frame ∧ t.outcomes = s.outcomes ∧ t.frames = s.frames

/-- R124: row `X.END`. A payload of `K` copies of `0xC0` becomes `0xC0` and `K` pairs. That `j` is the length of the model's
own field `encOut` is log entry 5, and a row as an instruction in any state, outside an ENCODE too, is log entry 8. -/
def Obligations.RowXEndEmitsAnEscapedEND : Prop :=
  decodeEncByte 0xC0#8 = .xEnd ∧
  (∀ s : State, exec .xEnd s = .next { s with
    tx := (s.tx.write s.encOut.length 0xDB#8).write (s.encOut.length + 1) 0xDC#8
    encOut := s.encOut ++ [0xDB#8, 0xDC#8] }) ∧
  ∀ k : Nat, wire (List.replicate k 0xC0#8) = 0xC0#8 :: (List.replicate k [0xDB#8, 0xDC#8]).flatten ∧
    (wire (List.replicate k 0xC0#8)).length = 2 * k + 1

/-- R125: row `X.ESC`. That `j` is the length of the model's own field `encOut` is log entry 5, and a row as an instruction in
any state, outside an ENCODE too, is log entry 8. -/
def Obligations.RowXEscEmitsAnEscapedESC : Prop :=
  decodeEncByte 0xDB#8 = .xEsc ∧
  ∀ s : State, exec .xEsc s = .next { s with
    tx := (s.tx.write s.encOut.length 0xDB#8).write (s.encOut.length + 1) 0xDD#8
    encOut := s.encOut ++ [0xDB#8, 0xDD#8] }

/-- R126: row `X.DATA`, for each of its 254 bytes; the decoder reads each back as data in Decoding mode. That `j` is the
length of the model's own field `encOut` is log entry 5, and a row as an instruction in any state, outside an ENCODE too, is
log entry 8. -/
def Obligations.RowXDataEmitsTheByteUnchanged : Prop :=
  ∀ p : Byte, p ≠ 0xC0#8 → p ≠ 0xDB#8 →
    decodeEncByte p = .xData p ∧ decodeKey (key .decoding p) = .dData p ∧
    ∀ s : State, exec (.xData p) s = .next { s with
      tx := s.tx.write s.encOut.length p, encOut := s.encOut ++ [p] }

/-- R42 (that `TX` beyond `enc_len` is unchanged is the spec's decision D26, log entry 20): a step changes `TX` only in an ENCODE that is not rejected, and only below that ENCODE's `enc_len`. -/
def Obligations.TxIsWrittenOnlyByAnAcceptedEncode : Prop :=
  ∀ s t : State, step s = .next t →
    (∀ k, t.tx.read k = s.tx.read k) ∨
    ∃ x rest n, s.pending = .op x :: rest ∧ opField x.cmd = 0b01#2 ∧ t.encResult = some (.ok n) ∧
      n < x.args.outCapacity ∧ ∀ k, n ≤ k → t.tx.read k = s.tx.read k

/-! ### Both ports, and whole streams -/

/-- R50 (the spec's decision D17): a receive-port operation and an ENCODE give the same state in either order, where both go on. -/
def Obligations.PortsAreIndependent : Prop :=
  ∀ (s u : State) (i : Instr) (ig : Byte) (a : EncArgs), (∃ b, i = .onByte b) ∨ (∃ x, i = .reset x) →
    ((∃ t, exec i s = .next t ∧ exec (.encode ig a) t = .next u) ↔
      ∃ v, exec (.encode ig a) s = .next v ∧ exec i v = .next u)

/-- R131 (derived in the spec): feeding a wire form and a closing `END` delivers the payload as the last event, from any receive state; before it
the leading `END` completes at most what was in progress in Decoding mode; from the initial state there is exactly the one
event, and for the empty payload none. -/
def Obligations.RoundTripDeliversThePayload : Prop :=
  (∀ (s : State) (p : List Byte), BlockInv s → 1 ≤ p.length → p.length ≤ s.rxCapacity →
    ∃ t lead, feed (wire p ++ [END]) s = .next t ∧ t.dec.mode = .decoding ∧ t.dec.wi = 0 ∧
      t.rxOutcome = some .frameComplete ∧ t.frame = some p ∧
      t.frames = s.frames ++ lead ++ [(s.outcomes.length + (wire p).length, p)] ∧
      (s.dec.mode = .decoding ∧ 0 < s.dec.wi →
        ∃ f, s.dec.frame = some f ∧ lead = [(s.outcomes.length, f)]) ∧
      (¬ (s.dec.mode = .decoding ∧ 0 < s.dec.wi) → lead = [])) ∧
  ∀ s : State, BlockInv s → s.dec.initial → ∃ t, feed (wire [] ++ [END]) s = .next t ∧ t.frames = s.frames

/-- R174(a) (derived in the spec): back-to-back wire forms with no gap are told apart: the leading `END` of the second completes the first. -/
def Obligations.BackToBackFramesAreToldApart : Prop :=
  ∀ (s : State) (p q : List Byte), BlockInv s → s.dec.initial → 1 ≤ p.length → p.length ≤ s.rxCapacity →
    1 ≤ q.length → q.length ≤ s.rxCapacity →
    ∃ t, feed (wire p ++ wire q ++ [END]) s = .next t ∧ t.dec.initial ∧
      t.frames = s.frames ++
        [(s.outcomes.length + (wire p).length, p), (s.outcomes.length + (wire p).length + (wire q).length, q)]

/-- R86, P-BND: a payload of `N + 1` bytes triggers Overflow on the last byte of its wire form, before any FrameComplete, and
every byte before that is InProgress. That the decoder is initial after it rests on the spec's decision D13 (log entry 12). -/
def Obligations.OneByteOverTheCapacityOverflows : Prop :=
  ∀ (s : State) (p : List Byte), BlockInv s → s.dec.initial → p.length = s.rxCapacity + 1 →
    ∃ t, feed (wire p) s = .next t ∧ t.dec.initial ∧ t.frames = s.frames ∧
      t.outcomes = s.outcomes ++ List.replicate ((wire p).length - 1) .inProgress ++ [.overflow]

/-! ### Codes and the reserved word -/

/-- R66 (the codes are the spec's decision D6, log entry 16): the outcome codes; every 2-bit code is used. -/
def Obligations.OutcomeCodes : Prop :=
  RxOutcome.code .inProgress = 0b00#2 ∧ RxOutcome.code .frameComplete = 0b01#2 ∧
  RxOutcome.code .overflow = 0b10#2 ∧ RxOutcome.code .protocolError = 0b11#2 ∧
  (∀ c : BitVec 2, ∃ o : RxOutcome, o.code = c) ∧
  ∀ (s t : State) (b : Byte), exec (.onByte b) s = .next t → ∃ o : RxOutcome, t.rxOutcomeSignal = some o.code

/-- R67 (the codes are the spec's decision D27, log entry 16): `enc_ok` and `enc_len` for `Ok` and for `Rejected`. -/
def Obligations.EncodeResultCodes : Prop :=
  (∀ n : Nat, (EncResult.ok n).encOk = 1#1 ∧ (EncResult.ok n).encLen = n) ∧
  EncResult.rejected.encOk = 0#1 ∧ EncResult.rejected.encLen = 0 ∧
  ∀ (s t : State) (ig : Byte) (a : EncArgs), exec (.encode ig a) s = .next t →
    (t.encOkSignal = some 1#1 ∧ ∃ w, t.encodes = s.encodes ++ [(.ok w.length, w)]) ∨
    (t.encOkSignal = some 0#1 ∧ t.encLenSignal = some 0#t.lenW)

/-- R69(a) (the command word is the spec's decision D19, log entry 16): the reserved command word is refused in every state. -/
def Obligations.ReservedWordIsRefused : Prop :=
  ∀ (s : State) (ig : Byte), exec (.reserved ig) s = .refused .reservedOp

/-- R70, R102 (the port signals of a whole step; delivery as a snapshot is the spec's decision D11, log entry 14):
`frame_valid` is 1 after a step exactly where the step was an ON_BYTE whose outcome is `FrameComplete`, whatever it was
before and whichever port the step served, and then the frame is `RX[0:wi)` as the step found it. -/
def Obligations.FrameValidExactlyOnACompletingByte : Prop :=
  ∀ s t : State, step s = .next t →
    (t.frameValid = 1#1 ↔ ∃ x rest, s.pending = .op x :: rest ∧ opField x.cmd = 0b00#2 ∧
      t.rxOutcome = some .frameComplete ∧ t.outcomes = s.outcomes ++ [.frameComplete]) ∧
    ∀ f : List Byte, t.frame = some f → f.length = s.dec.wi ∧ ∀ j, j < s.dec.wi → f[j]? = s.dec.rx.read j
end

