-- ==== Sys2Proof/Laws/Codec.lean ====
section
/-! SUPPORT. The laws of the word formats: the fields of a built word, the rows that keys and bytes select. -/

namespace Sys2Proof

@[simp] theorem opField_cmdWord (op : BitVec 2) (b : Byte) : opField (cmdWord op b) = op := by
  revert op b; decide

@[simp] theorem byteField_cmdWord (op : BitVec 2) (b : Byte) : byteField (cmdWord op b) = b := by
  revert op b; decide

/-- A command word is its two fields. -/
theorem cmdWord_fields (c : CmdWord) : cmdWord (opField c) (byteField c) = c := by
  revert c; decide

theorem decodeTransaction_onByte (b : Byte) (a : EncArgs) :
    decodeTransaction { cmd := cmdWord 0b00#2 b, args := a } = .onByte b := by
  simp [decodeTransaction]

theorem decodeTransaction_encode (ig : Byte) (a : EncArgs) :
    decodeTransaction { cmd := cmdWord 0b01#2 ig, args := a } = .encode ig a := by
  simp [decodeTransaction]

theorem decodeTransaction_reset (ig : Byte) (a : EncArgs) :
    decodeTransaction { cmd := cmdWord 0b10#2 ig, args := a } = .reset ig := by
  simp [decodeTransaction]

theorem decodeTransaction_reserved (ig : Byte) (a : EncArgs) :
    decodeTransaction { cmd := cmdWord 0b11#2 ig, args := a } = .reserved ig := by
  simp [decodeTransaction]

/-- A transaction is one of four: ON_BYTE, ENCODE, RESET or the reserved word (R72). -/
theorem decodeTransaction_cases (t : Transaction) :
    (∃ b, decodeTransaction t = .onByte b) ∨ (∃ ig, decodeTransaction t = .encode ig t.args) ∨
      (∃ ig, decodeTransaction t = .reset ig) ∨ ∃ ig, decodeTransaction t = .reserved ig := by
  simp only [decodeTransaction]
  split
  · exact .inl ⟨_, rfl⟩
  · split
    · exact .inr (.inl ⟨_, rfl⟩)
    · split
      · exact .inr (.inr (.inl ⟨_, rfl⟩))
      · exact .inr (.inr (.inr ⟨_, rfl⟩))

@[simp] theorem keyByte_key (m : Machine.Mode) (b : Byte) : keyByte (Machine.key m b) = b := by
  cases m <;> (revert b; decide)

@[simp] theorem modeOfKey_key (m : Machine.Mode) (b : Byte) : Machine.modeOfKey (Machine.key m b) = m := by
  cases m <;> (revert b; decide)

/-- The row a byte selects in Decoding mode (R63). -/
theorem rowOfKey_decoding (b : Byte) :
    rowOfKey (Machine.key .decoding b) = if b = END then .dEnd else if b = ESC then .dEsc else .dData := by
  revert b; decide

/-- The row a byte selects in EscapeHandling mode (R63). -/
theorem rowOfKey_escapeHandling (b : Byte) :
    rowOfKey (Machine.key .escapeHandling b) =
      if b = ESC_END then .eEscEnd else if b = ESC_ESC then .eEscEsc else .eInvalid := by
  revert b; decide

/-- The row a payload byte selects (R64). -/
theorem rowOfByte_eq (p : Byte) :
    rowOfByte p = if p = END then .xEnd else if p = ESC then .xEsc else .xData := by
  revert p; decide

end Sys2Proof
end

