-- ==== Sys2Proof/Laws/State.lean ====
section
/-! SUPPORT. One lemma per field per state update, so that no proof unfolds a record update. -/

namespace Sys2Proof.Machine

@[simp] theorem lowerFrameValid_rxCapacity (s : State) : (lowerFrameValid s).rxCapacity = s.rxCapacity := rfl
@[simp] theorem lowerFrameValid_lenW (s : State) : (lowerFrameValid s).lenW = s.lenW := rfl
@[simp] theorem lowerFrameValid_dec (s : State) : (lowerFrameValid s).dec = s.dec := rfl
@[simp] theorem lowerFrameValid_tx (s : State) : (lowerFrameValid s).tx = s.tx := rfl
@[simp] theorem lowerFrameValid_rxOutcome (s : State) : (lowerFrameValid s).rxOutcome = s.rxOutcome := rfl
@[simp] theorem lowerFrameValid_frame (s : State) : (lowerFrameValid s).frame = none := rfl
@[simp] theorem lowerFrameValid_encResult (s : State) : (lowerFrameValid s).encResult = s.encResult := rfl
@[simp] theorem lowerFrameValid_encOut (s : State) : (lowerFrameValid s).encOut = s.encOut := rfl
@[simp] theorem lowerFrameValid_outcomes (s : State) : (lowerFrameValid s).outcomes = s.outcomes := rfl
@[simp] theorem lowerFrameValid_frames (s : State) : (lowerFrameValid s).frames = s.frames := rfl
@[simp] theorem lowerFrameValid_encodes (s : State) : (lowerFrameValid s).encodes = s.encodes := rfl
@[simp] theorem lowerFrameValid_pending (s : State) : (lowerFrameValid s).pending = s.pending := rfl
@[simp] theorem lowerFrameValid_pos (s : State) : (lowerFrameValid s).pos = s.pos := rfl

@[simp] theorem driveOutcome_rxCapacity (o : RxOutcome) (s : State) : (driveOutcome o s).rxCapacity = s.rxCapacity := rfl
@[simp] theorem driveOutcome_lenW (o : RxOutcome) (s : State) : (driveOutcome o s).lenW = s.lenW := rfl
@[simp] theorem driveOutcome_dec (o : RxOutcome) (s : State) : (driveOutcome o s).dec = s.dec := rfl
@[simp] theorem driveOutcome_tx (o : RxOutcome) (s : State) : (driveOutcome o s).tx = s.tx := rfl
@[simp] theorem driveOutcome_rxOutcome (o : RxOutcome) (s : State) : (driveOutcome o s).rxOutcome = some o := rfl
@[simp] theorem driveOutcome_frame (o : RxOutcome) (s : State) : (driveOutcome o s).frame = none := rfl
@[simp] theorem driveOutcome_encResult (o : RxOutcome) (s : State) : (driveOutcome o s).encResult = s.encResult := rfl
@[simp] theorem driveOutcome_encOut (o : RxOutcome) (s : State) : (driveOutcome o s).encOut = s.encOut := rfl
@[simp] theorem driveOutcome_outcomes (o : RxOutcome) (s : State) : (driveOutcome o s).outcomes = s.outcomes ++ [o] := rfl
@[simp] theorem driveOutcome_frames (o : RxOutcome) (s : State) : (driveOutcome o s).frames = s.frames := rfl
@[simp] theorem driveOutcome_encodes (o : RxOutcome) (s : State) : (driveOutcome o s).encodes = s.encodes := rfl
@[simp] theorem driveOutcome_pending (o : RxOutcome) (s : State) : (driveOutcome o s).pending = s.pending := rfl
@[simp] theorem driveOutcome_pos (o : RxOutcome) (s : State) : (driveOutcome o s).pos = s.pos := rfl

@[simp] theorem accept_rxCapacity (d : Decoder) (s : State) : (accept d s).rxCapacity = s.rxCapacity := rfl
@[simp] theorem accept_lenW (d : Decoder) (s : State) : (accept d s).lenW = s.lenW := rfl
@[simp] theorem accept_dec (d : Decoder) (s : State) : (accept d s).dec = d := rfl
@[simp] theorem accept_tx (d : Decoder) (s : State) : (accept d s).tx = s.tx := rfl
@[simp] theorem accept_rxOutcome (d : Decoder) (s : State) : (accept d s).rxOutcome = some .inProgress := rfl
@[simp] theorem accept_frame (d : Decoder) (s : State) : (accept d s).frame = none := rfl
@[simp] theorem accept_encResult (d : Decoder) (s : State) : (accept d s).encResult = s.encResult := rfl
@[simp] theorem accept_encOut (d : Decoder) (s : State) : (accept d s).encOut = s.encOut := rfl
@[simp] theorem accept_outcomes (d : Decoder) (s : State) : (accept d s).outcomes = s.outcomes ++ [.inProgress] := rfl
@[simp] theorem accept_frames (d : Decoder) (s : State) : (accept d s).frames = s.frames := rfl
@[simp] theorem accept_encodes (d : Decoder) (s : State) : (accept d s).encodes = s.encodes := rfl
@[simp] theorem accept_pending (d : Decoder) (s : State) : (accept d s).pending = s.pending := rfl
@[simp] theorem accept_pos (d : Decoder) (s : State) : (accept d s).pos = s.pos := rfl

@[simp] theorem raiseError_rxCapacity (o : RxOutcome) (s : State) : (raiseError o s).rxCapacity = s.rxCapacity := rfl
@[simp] theorem raiseError_lenW (o : RxOutcome) (s : State) : (raiseError o s).lenW = s.lenW := rfl
@[simp] theorem raiseError_dec (o : RxOutcome) (s : State) : (raiseError o s).dec = s.dec.reset := rfl
@[simp] theorem raiseError_tx (o : RxOutcome) (s : State) : (raiseError o s).tx = s.tx := rfl
@[simp] theorem raiseError_rxOutcome (o : RxOutcome) (s : State) : (raiseError o s).rxOutcome = some o := rfl
@[simp] theorem raiseError_frame (o : RxOutcome) (s : State) : (raiseError o s).frame = none := rfl
@[simp] theorem raiseError_encResult (o : RxOutcome) (s : State) : (raiseError o s).encResult = s.encResult := rfl
@[simp] theorem raiseError_encOut (o : RxOutcome) (s : State) : (raiseError o s).encOut = s.encOut := rfl
@[simp] theorem raiseError_outcomes (o : RxOutcome) (s : State) : (raiseError o s).outcomes = s.outcomes ++ [o] := rfl
@[simp] theorem raiseError_frames (o : RxOutcome) (s : State) : (raiseError o s).frames = s.frames := rfl
@[simp] theorem raiseError_encodes (o : RxOutcome) (s : State) : (raiseError o s).encodes = s.encodes := rfl
@[simp] theorem raiseError_pending (o : RxOutcome) (s : State) : (raiseError o s).pending = s.pending := rfl
@[simp] theorem raiseError_pos (o : RxOutcome) (s : State) : (raiseError o s).pos = s.pos := rfl

@[simp] theorem emitFrame_rxCapacity (f : List Byte) (s : State) : (emitFrame f s).rxCapacity = s.rxCapacity := rfl
@[simp] theorem emitFrame_lenW (f : List Byte) (s : State) : (emitFrame f s).lenW = s.lenW := rfl
@[simp] theorem emitFrame_dec (f : List Byte) (s : State) : (emitFrame f s).dec = s.dec.reset := rfl
@[simp] theorem emitFrame_tx (f : List Byte) (s : State) : (emitFrame f s).tx = s.tx := rfl
@[simp] theorem emitFrame_rxOutcome (f : List Byte) (s : State) : (emitFrame f s).rxOutcome = some .frameComplete := rfl
@[simp] theorem emitFrame_frame (f : List Byte) (s : State) : (emitFrame f s).frame = some f := rfl
@[simp] theorem emitFrame_encResult (f : List Byte) (s : State) : (emitFrame f s).encResult = s.encResult := rfl
@[simp] theorem emitFrame_encOut (f : List Byte) (s : State) : (emitFrame f s).encOut = s.encOut := rfl
@[simp] theorem emitFrame_outcomes (f : List Byte) (s : State) : (emitFrame f s).outcomes = s.outcomes ++ [.frameComplete] := rfl
@[simp] theorem emitFrame_frames (f : List Byte) (s : State) : (emitFrame f s).frames = s.frames ++ [(s.outcomes.length, f)] := rfl
@[simp] theorem emitFrame_encodes (f : List Byte) (s : State) : (emitFrame f s).encodes = s.encodes := rfl
@[simp] theorem emitFrame_pending (f : List Byte) (s : State) : (emitFrame f s).pending = s.pending := rfl
@[simp] theorem emitFrame_pos (f : List Byte) (s : State) : (emitFrame f s).pos = s.pos := rfl

@[simp] theorem resetPort_rxCapacity (s : State) : (resetPort s).rxCapacity = s.rxCapacity := rfl
@[simp] theorem resetPort_lenW (s : State) : (resetPort s).lenW = s.lenW := rfl
@[simp] theorem resetPort_dec (s : State) : (resetPort s).dec = s.dec.reset := rfl
@[simp] theorem resetPort_tx (s : State) : (resetPort s).tx = s.tx := rfl
@[simp] theorem resetPort_rxOutcome (s : State) : (resetPort s).rxOutcome = none := rfl
@[simp] theorem resetPort_frame (s : State) : (resetPort s).frame = none := rfl
@[simp] theorem resetPort_encResult (s : State) : (resetPort s).encResult = s.encResult := rfl
@[simp] theorem resetPort_encOut (s : State) : (resetPort s).encOut = s.encOut := rfl
@[simp] theorem resetPort_outcomes (s : State) : (resetPort s).outcomes = s.outcomes := rfl
@[simp] theorem resetPort_frames (s : State) : (resetPort s).frames = s.frames := rfl
@[simp] theorem resetPort_encodes (s : State) : (resetPort s).encodes = s.encodes := rfl
@[simp] theorem resetPort_pending (s : State) : (resetPort s).pending = s.pending := rfl
@[simp] theorem resetPort_pos (s : State) : (resetPort s).pos = s.pos := rfl

@[simp] theorem beginEncode_rxCapacity (s : State) : (beginEncode s).rxCapacity = s.rxCapacity := rfl
@[simp] theorem beginEncode_lenW (s : State) : (beginEncode s).lenW = s.lenW := rfl
@[simp] theorem beginEncode_dec (s : State) : (beginEncode s).dec = s.dec := rfl
@[simp] theorem beginEncode_tx (s : State) : (beginEncode s).tx = s.tx := rfl
@[simp] theorem beginEncode_rxOutcome (s : State) : (beginEncode s).rxOutcome = s.rxOutcome := rfl
@[simp] theorem beginEncode_frame (s : State) : (beginEncode s).frame = s.frame := rfl
@[simp] theorem beginEncode_encResult (s : State) : (beginEncode s).encResult = s.encResult := rfl
@[simp] theorem beginEncode_encOut (s : State) : (beginEncode s).encOut = [] := rfl
@[simp] theorem beginEncode_outcomes (s : State) : (beginEncode s).outcomes = s.outcomes := rfl
@[simp] theorem beginEncode_frames (s : State) : (beginEncode s).frames = s.frames := rfl
@[simp] theorem beginEncode_encodes (s : State) : (beginEncode s).encodes = s.encodes := rfl
@[simp] theorem beginEncode_pending (s : State) : (beginEncode s).pending = s.pending := rfl
@[simp] theorem beginEncode_pos (s : State) : (beginEncode s).pos = s.pos := rfl

@[simp] theorem emitByte_rxCapacity (v : Byte) (s : State) : (emitByte v s).rxCapacity = s.rxCapacity := rfl
@[simp] theorem emitByte_lenW (v : Byte) (s : State) : (emitByte v s).lenW = s.lenW := rfl
@[simp] theorem emitByte_dec (v : Byte) (s : State) : (emitByte v s).dec = s.dec := rfl
@[simp] theorem emitByte_tx (v : Byte) (s : State) : (emitByte v s).tx = s.tx.write s.encOut.length v := rfl
@[simp] theorem emitByte_rxOutcome (v : Byte) (s : State) : (emitByte v s).rxOutcome = s.rxOutcome := rfl
@[simp] theorem emitByte_frame (v : Byte) (s : State) : (emitByte v s).frame = s.frame := rfl
@[simp] theorem emitByte_encResult (v : Byte) (s : State) : (emitByte v s).encResult = s.encResult := rfl
@[simp] theorem emitByte_encOut (v : Byte) (s : State) : (emitByte v s).encOut = s.encOut ++ [v] := rfl
@[simp] theorem emitByte_outcomes (v : Byte) (s : State) : (emitByte v s).outcomes = s.outcomes := rfl
@[simp] theorem emitByte_frames (v : Byte) (s : State) : (emitByte v s).frames = s.frames := rfl
@[simp] theorem emitByte_encodes (v : Byte) (s : State) : (emitByte v s).encodes = s.encodes := rfl
@[simp] theorem emitByte_pending (v : Byte) (s : State) : (emitByte v s).pending = s.pending := rfl
@[simp] theorem emitByte_pos (v : Byte) (s : State) : (emitByte v s).pos = s.pos := rfl

@[simp] theorem finishEncode_rxCapacity (s : State) : (finishEncode s).rxCapacity = s.rxCapacity := rfl
@[simp] theorem finishEncode_lenW (s : State) : (finishEncode s).lenW = s.lenW := rfl
@[simp] theorem finishEncode_dec (s : State) : (finishEncode s).dec = s.dec := rfl
@[simp] theorem finishEncode_tx (s : State) : (finishEncode s).tx = s.tx := rfl
@[simp] theorem finishEncode_rxOutcome (s : State) : (finishEncode s).rxOutcome = s.rxOutcome := rfl
@[simp] theorem finishEncode_frame (s : State) : (finishEncode s).frame = s.frame := rfl
@[simp] theorem finishEncode_encResult (s : State) : (finishEncode s).encResult = some (.ok s.encOut.length) := rfl
@[simp] theorem finishEncode_encOut (s : State) : (finishEncode s).encOut = [] := rfl
@[simp] theorem finishEncode_outcomes (s : State) : (finishEncode s).outcomes = s.outcomes := rfl
@[simp] theorem finishEncode_frames (s : State) : (finishEncode s).frames = s.frames := rfl
@[simp] theorem finishEncode_encodes (s : State) : (finishEncode s).encodes = s.encodes ++ [(.ok s.encOut.length, s.encOut)] := rfl
@[simp] theorem finishEncode_pending (s : State) : (finishEncode s).pending = s.pending := rfl
@[simp] theorem finishEncode_pos (s : State) : (finishEncode s).pos = s.pos := rfl

@[simp] theorem rejectEncode_rxCapacity (s : State) : (rejectEncode s).rxCapacity = s.rxCapacity := rfl
@[simp] theorem rejectEncode_lenW (s : State) : (rejectEncode s).lenW = s.lenW := rfl
@[simp] theorem rejectEncode_dec (s : State) : (rejectEncode s).dec = s.dec := rfl
@[simp] theorem rejectEncode_tx (s : State) : (rejectEncode s).tx = s.tx := rfl
@[simp] theorem rejectEncode_rxOutcome (s : State) : (rejectEncode s).rxOutcome = s.rxOutcome := rfl
@[simp] theorem rejectEncode_frame (s : State) : (rejectEncode s).frame = s.frame := rfl
@[simp] theorem rejectEncode_encResult (s : State) : (rejectEncode s).encResult = some .rejected := rfl
@[simp] theorem rejectEncode_encOut (s : State) : (rejectEncode s).encOut = s.encOut := rfl
@[simp] theorem rejectEncode_outcomes (s : State) : (rejectEncode s).outcomes = s.outcomes := rfl
@[simp] theorem rejectEncode_frames (s : State) : (rejectEncode s).frames = s.frames := rfl
@[simp] theorem rejectEncode_encodes (s : State) : (rejectEncode s).encodes = s.encodes ++ [(.rejected, [])] := rfl
@[simp] theorem rejectEncode_pending (s : State) : (rejectEncode s).pending = s.pending := rfl
@[simp] theorem rejectEncode_pos (s : State) : (rejectEncode s).pos = s.pos := rfl

@[simp] theorem powerOn_rxCapacity (s : State) : (powerOn s).rxCapacity = s.rxCapacity := rfl
@[simp] theorem powerOn_lenW (s : State) : (powerOn s).lenW = s.lenW := rfl
@[simp] theorem powerOn_dec (s : State) : (powerOn s).dec = Decoder.powerOn := rfl
@[simp] theorem powerOn_tx (s : State) : (powerOn s).tx = s.tx := rfl
@[simp] theorem powerOn_rxOutcome (s : State) : (powerOn s).rxOutcome = none := rfl
@[simp] theorem powerOn_frame (s : State) : (powerOn s).frame = none := rfl
@[simp] theorem powerOn_encResult (s : State) : (powerOn s).encResult = s.encResult := rfl
@[simp] theorem powerOn_encOut (s : State) : (powerOn s).encOut = [] := rfl
@[simp] theorem powerOn_outcomes (s : State) : (powerOn s).outcomes = s.outcomes := rfl
@[simp] theorem powerOn_frames (s : State) : (powerOn s).frames = s.frames := rfl
@[simp] theorem powerOn_encodes (s : State) : (powerOn s).encodes = s.encodes := rfl
@[simp] theorem powerOn_pending (s : State) : (powerOn s).pending = s.pending := rfl
@[simp] theorem powerOn_pos (s : State) : (powerOn s).pos = s.pos := rfl

@[simp] theorem takeInput_rxCapacity (r : List HostInput) (s : State) : (takeInput r s).rxCapacity = s.rxCapacity := rfl
@[simp] theorem takeInput_lenW (r : List HostInput) (s : State) : (takeInput r s).lenW = s.lenW := rfl
@[simp] theorem takeInput_dec (r : List HostInput) (s : State) : (takeInput r s).dec = s.dec := rfl
@[simp] theorem takeInput_tx (r : List HostInput) (s : State) : (takeInput r s).tx = s.tx := rfl
@[simp] theorem takeInput_rxOutcome (r : List HostInput) (s : State) : (takeInput r s).rxOutcome = s.rxOutcome := rfl
@[simp] theorem takeInput_frame (r : List HostInput) (s : State) : (takeInput r s).frame = none := rfl
@[simp] theorem takeInput_encResult (r : List HostInput) (s : State) : (takeInput r s).encResult = s.encResult := rfl
@[simp] theorem takeInput_encOut (r : List HostInput) (s : State) : (takeInput r s).encOut = s.encOut := rfl
@[simp] theorem takeInput_outcomes (r : List HostInput) (s : State) : (takeInput r s).outcomes = s.outcomes := rfl
@[simp] theorem takeInput_frames (r : List HostInput) (s : State) : (takeInput r s).frames = s.frames := rfl
@[simp] theorem takeInput_encodes (r : List HostInput) (s : State) : (takeInput r s).encodes = s.encodes := rfl
@[simp] theorem takeInput_pending (r : List HostInput) (s : State) : (takeInput r s).pending = r := rfl
@[simp] theorem takeInput_pos (r : List HostInput) (s : State) : (takeInput r s).pos = s.pos + 1 := rfl

@[simp] theorem present_rxCapacity (h : HostInput) (s : State) : (present h s).rxCapacity = s.rxCapacity := rfl
@[simp] theorem present_lenW (h : HostInput) (s : State) : (present h s).lenW = s.lenW := rfl
@[simp] theorem present_dec (h : HostInput) (s : State) : (present h s).dec = s.dec := rfl
@[simp] theorem present_tx (h : HostInput) (s : State) : (present h s).tx = s.tx := rfl
@[simp] theorem present_rxOutcome (h : HostInput) (s : State) : (present h s).rxOutcome = s.rxOutcome := rfl
@[simp] theorem present_frame (h : HostInput) (s : State) : (present h s).frame = s.frame := rfl
@[simp] theorem present_encResult (h : HostInput) (s : State) : (present h s).encResult = s.encResult := rfl
@[simp] theorem present_encOut (h : HostInput) (s : State) : (present h s).encOut = s.encOut := rfl
@[simp] theorem present_outcomes (h : HostInput) (s : State) : (present h s).outcomes = s.outcomes := rfl
@[simp] theorem present_frames (h : HostInput) (s : State) : (present h s).frames = s.frames := rfl
@[simp] theorem present_encodes (h : HostInput) (s : State) : (present h s).encodes = s.encodes := rfl
@[simp] theorem present_pending (h : HostInput) (s : State) : (present h s).pending = h :: s.pending := rfl
@[simp] theorem present_pos (h : HostInput) (s : State) : (present h s).pos = s.pos := rfl

@[simp] theorem Decoder.reset_mode (d : Decoder) : d.reset.mode = .decoding := rfl
@[simp] theorem Decoder.reset_wi (d : Decoder) : d.reset.wi = 0 := rfl
@[simp] theorem Decoder.reset_rx (d : Decoder) : d.reset.rx = d.rx := rfl
@[simp] theorem Decoder.powerOn_mode : Decoder.powerOn.mode = .decoding := rfl
@[simp] theorem Decoder.powerOn_wi : Decoder.powerOn.wi = 0 := rfl
@[simp] theorem Decoder.powerOn_rx : Decoder.powerOn.rx = [] := rfl

end Sys2Proof.Machine
end

