-- ==== Sys2Proof/Laws/Memory.lean ====
section
/-! SUPPORT. The laws of the byte arrays: read after write, the canonical form, and reading a frame out of `RX`. -/

namespace Sys2Proof.Machine

@[simp] theorem Memory.read_nil (i : Nat) : Memory.read [] i = none := rfl

@[simp] theorem Memory.wf_nil : Memory.wf [] = true := rfl

theorem Memory.read_write_same (m : Memory) (i : Nat) (v : Byte) : (m.write i v).read i = some v := by
  induction m with
  | nil => simp [Memory.write, Memory.read]
  | cons c m ih =>
    obtain ⟨a, x⟩ := c
    simp only [Memory.write]
    split
    · simp [Memory.read]
    · split
      · simp [Memory.read]
      · rename_i h
        simp [Memory.read, h, ih]

theorem Memory.read_write_other (m : Memory) {i k : Nat} (v : Byte) (h : k ≠ i) :
    (m.write i v).read k = m.read k := by
  induction m with
  | nil => simp [Memory.write, Memory.read, h]
  | cons c m ih =>
    obtain ⟨a, x⟩ := c
    simp only [Memory.write]
    split
    · simp [Memory.read, h]
    · split
      · rename_i e
        subst e
        simp [Memory.read, h]
      · simp [Memory.read, ih]

/-- What a write does to every cell. -/
theorem Memory.read_write (m : Memory) (i k : Nat) (v : Byte) :
    (m.write i v).read k = if k = i then some v else m.read k := by
  by_cases h : k = i
  · subst h; simp [Memory.read_write_same]
  · simp [Memory.read_write_other m v h, h]

theorem Memory.wf_tail {c : Host.Cell} {m : Memory} (h : Memory.wf (c :: m) = true) : Memory.wf m = true := by
  cases m with
  | nil => rfl
  | cons d m => simp only [Memory.wf, Bool.and_eq_true] at h; exact h.2

theorem Memory.wf_cons_write {a i : Nat} {x v : Byte} {m : Memory} (ha : a < i)
    (h : Memory.wf ((a, x) :: m) = true) (hm : Memory.wf (m.write i v) = true) :
    Memory.wf ((a, x) :: m.write i v) = true := by
  cases m with
  | nil => simp [Memory.write, Memory.wf, ha]
  | cons d m =>
    obtain ⟨b, y⟩ := d
    have hab : a < b := by simp only [Memory.wf, Bool.and_eq_true, decide_eq_true_eq] at h; exact h.1
    by_cases h1 : i < b
    · rw [Memory.write, if_pos h1] at hm ⊢
      simp [Memory.wf, ha] at hm ⊢
      exact hm
    · rw [Memory.write, if_neg h1] at hm ⊢
      by_cases h2 : i = b
      · rw [if_pos h2] at hm ⊢
        simp [Memory.wf, ha, hm]
      · rw [if_neg h2] at hm ⊢
        simp [Memory.wf, hab, hm]

/-- Every write keeps the canonical form. -/
theorem Memory.wf_write {m : Memory} (i : Nat) (v : Byte) (h : Memory.wf m = true) :
    Memory.wf (m.write i v) = true := by
  induction m with
  | nil => rfl
  | cons c m ih =>
    obtain ⟨a, x⟩ := c
    have hm := ih (Memory.wf_tail h)
    by_cases h1 : i < a
    · simp [Memory.write, h1, Memory.wf, h]
    · by_cases h2 : i = a
      · subst h2
        cases m with
        | nil => simp [Memory.write, Memory.wf]
        | cons d m => obtain ⟨b, y⟩ := d; simpa [Memory.write, Memory.wf] using h
      · have h3 : a < i := by omega
        simpa [Memory.write, h1, h2] using Memory.wf_cons_write h3 h hm

/-- Reading `k` bytes of `RX` succeeds with `f` exactly when `f` lists the `k` readable cells. -/
theorem Decoder.rxBytes_eq_some (d : Decoder) (k : Nat) : ∀ (i : Nat) (f : List Byte),
    d.rxBytes i k = some f ↔ f.length = k ∧ ∀ j, j < k → d.rxRead (i + j) = f[j]? := by
  induction k with
  | zero => intro i f; cases f <;> simp [Decoder.rxBytes]
  | succ k ih =>
    intro i f
    simp only [Decoder.rxBytes]
    constructor
    · intro h
      split at h
      · rename_i b bs h1 h2
        obtain ⟨hl, hr⟩ := (ih (i + 1) bs).1 h2
        cases h
        refine ⟨by simp [hl], fun j hj => ?_⟩
        cases j with
        | zero => simpa using h1
        | succ j => simpa [Nat.add_assoc, Nat.add_comm, Nat.add_left_comm] using hr j (by omega)
      · cases h
    · rintro ⟨hl, hr⟩
      cases f with
      | nil => simp at hl
      | cons b bs =>
        have h0 := hr 0 (by omega)
        have ht : d.rxBytes (i + 1) k = some bs :=
          (ih (i + 1) bs).2 ⟨by simpa using hl, fun j hj => by
            simpa [Nat.add_assoc, Nat.add_comm, Nat.add_left_comm] using hr (j + 1) (by omega)⟩
        simp only [Nat.add_zero, List.getElem?_cons_zero] at h0
        simp [h0, ht]

/-- The frame is the bytes of `RX[0:wi)` in index order. -/
theorem Decoder.frame_eq_some (d : Decoder) (f : List Byte) :
    d.frame = some f ↔ f.length = d.wi ∧ ∀ j, j < d.wi → d.rx.read j = f[j]? := by
  simp only [Decoder.frame, Decoder.rxBytes_eq_some, Nat.zero_add, Decoder.rxRead]
  constructor
  · rintro ⟨hl, hr⟩
    exact ⟨hl, fun j hj => by simpa [hj] using hr j hj⟩
  · rintro ⟨hl, hr⟩
    exact ⟨hl, fun j hj => by simpa [hj] using hr j hj⟩

/-- Where every cell below `wi` holds a value, there is a frame. -/
theorem Decoder.exists_frame (d : Decoder) (h : ∀ i, i < d.wi → (d.rx.read i).isSome = true) :
    ∃ f, d.frame = some f := by
  refine ⟨(List.range d.wi).map fun i => (d.rx.read i).getD 0, (d.frame_eq_some _).2 ⟨by simp, fun j hj => ?_⟩⟩
  obtain ⟨b, hb⟩ := Option.isSome_iff_exists.1 (h j hj)
  simp [hj, hb]

end Sys2Proof.Machine
end

