-- ==== Sys2Proof/Laws/PerInstr.lean ====
section
/-! SUPPORT. The family `RoundTrip`: decoding the word of a well-formed instruction gives it back, one lemma per
constructor. -/

namespace Sys2Proof.Laws.RoundTrip

/-- Decoding the encoded word gives the instruction, at every `LEN_W`. -/
def Statement (i : Instr) : Prop := ∀ lenW, i.wf lenW = true → decode (encode i) = i

theorem onByte (b : Byte) : Statement (.onByte b) := fun _ _ => decodeTransaction_onByte b _
theorem encode (ig : Byte) (a : EncArgs) : Statement (.encode ig a) := fun _ _ => decodeTransaction_encode ig a
theorem reset (ig : Byte) : Statement (.reset ig) := fun _ _ => decodeTransaction_reset ig _
theorem reserved (ig : Byte) : Statement (.reserved ig) := fun _ _ => decodeTransaction_reserved ig _
theorem dEnd : Statement .dEnd := fun _ _ => rfl
theorem dEsc : Statement .dEsc := fun _ _ => rfl
theorem eEscEnd : Statement .eEscEnd := fun _ _ => rfl
theorem eEscEsc : Statement .eEscEsc := fun _ _ => rfl
theorem xEnd : Statement .xEnd := fun _ _ => rfl
theorem xEsc : Statement .xEsc := fun _ _ => rfl

theorem dData (b : Byte) : Statement (.dData b) := fun _ => by
  revert b; simp only [Instr.wf]; decide

theorem eInvalid (b : Byte) : Statement (.eInvalid b) := fun _ => by
  revert b; simp only [Instr.wf]; decide

theorem xData (p : Byte) : Statement (.xData p) := fun _ => by
  revert p; simp only [Instr.wf]; decide

end Sys2Proof.Laws.RoundTrip
end

