-- ==== Sys2Proof/Laws/Receive.lean ====
section
/-! SUPPORT. What the receive port's shared operations can do, said once each, and the cases of a whole ON_BYTE. -/

namespace Sys2Proof.Machine

/-- The decoder's state after a write step that is not refused (R86). -/
theorem put_of_lt {n : Nat} {d : Decoder} (v : Byte) (h : d.wi < n) :
    put n d v = (.inProgress, { mode := .decoding, wi := d.wi + 1, rx := d.rx.write d.wi v }) := by
  simp [put, Nat.not_le.2 h]

theorem put_of_full {n : Nat} {d : Decoder} (v : Byte) (h : n ≤ d.wi) : put n d v = (.overflow, d) := by
  simp [put, h]

theorem putByte_of_lt {s : State} (v : Byte) (h : s.dec.wi < s.rxCapacity) :
    putByte v s = accept { mode := .decoding, wi := s.dec.wi + 1, rx := s.dec.rx.write s.dec.wi v } s := by
  simp [putByte, put_of_lt v h]

theorem putByte_of_full {s : State} (v : Byte) (h : s.rxCapacity ≤ s.dec.wi) :
    putByte v s = raiseError .overflow s := by
  simp [putByte, put_of_full v h]

/-- The write step with the assembler's part is R100 applied to R86. -/
theorem assemble_put (v : Byte) (s : State) : assemble (put s.rxCapacity s.dec v) s = .next (putByte v s) := by
  by_cases h : s.dec.wi < s.rxCapacity
  · simp [put_of_lt v h, putByte_of_lt v h, assemble]
  · simp [put_of_full v (Nat.not_lt.1 h), putByte_of_full v (Nat.not_lt.1 h), assemble]

/-- Frame delivery goes on exactly when the frame can be read. -/
theorem deliver_of_frame {s : State} {f : List Byte} (h : s.dec.frame = some f) :
    deliver s = .next (emitFrame f s) := by
  simp [deliver, h]

theorem deliver_next {s t : State} (h : deliver s = .next t) :
    ∃ f, s.dec.frame = some f ∧ t = emitFrame f s := by
  unfold deliver at h
  split at h
  · rename_i f hf
    exact ⟨f, hf, by cases h; rfl⟩
  · cases h

theorem execDEnd_of_zero {s : State} (h : s.dec.wi = 0) : execDEnd s = .next (accept s.dec s) := by
  simp [execDEnd, decDEnd, h, assemble]

theorem execDEnd_of_pos {s : State} (h : 0 < s.dec.wi) : execDEnd s = deliver s := by
  simp [execDEnd, decDEnd, h, assemble]

theorem execDEsc_eq (s : State) : execDEsc s = .next (accept { s.dec with mode := .escapeHandling } s) := rfl

theorem execEInvalid_eq (b : Byte) (s : State) : execEInvalid b s = .next (raiseError .protocolError s) := rfl

/-! ### ON_BYTE, by mode and byte -/

theorem exec_onByte_END {s : State} (h : s.dec.mode = .decoding) : exec (.onByte END) s = execDEnd s := by
  simp [exec, execOnByte, h, rowOfKey_decoding]

theorem exec_onByte_ESC {s : State} (h : s.dec.mode = .decoding) : exec (.onByte ESC) s = execDEsc s := by
  have : (ESC = END) = False := by decide
  simp [exec, execOnByte, h, rowOfKey_decoding, this]

/-- A byte that takes a write step always goes on. -/
theorem exec_onByte_stored {s : State} {b v : Byte} (h : storedByte s.dec.mode b = some v) :
    exec (.onByte b) s = .next (putByte v s) := by
  cases hm : s.dec.mode with
  | decoding =>
    simp only [hm, storedByte] at h
    split at h
    · cases h
    · rename_i hb
      push Not at hb
      cases h
      simp [exec, execOnByte, hm, rowOfKey_decoding, hb.1, hb.2, execDData]
  | escapeHandling =>
    simp only [hm, storedByte] at h
    split at h
    · rename_i hb
      cases h
      simp [exec, execOnByte, hm, rowOfKey_escapeHandling, hb, execEEscEnd]
    · split at h
      · rename_i hb
        cases h
        simp [exec, execOnByte, hm, rowOfKey_escapeHandling, hb, execEEscEsc, show ESC_ESC ≠ ESC_END by decide]
      · cases h

theorem exec_onByte_invalid {s : State} {b : Byte} (hm : s.dec.mode = .escapeHandling)
    (h : storedByte s.dec.mode b = none) : exec (.onByte b) s = .next (raiseError .protocolError s) := by
  simp only [hm, storedByte] at h
  split at h
  · cases h
  · split at h
    · cases h
    · rename_i h1 h2
      simp [exec, execOnByte, hm, rowOfKey_escapeHandling, h1, h2, execEInvalid_eq]

/-- Every mode and byte falls under one of four heads. -/
theorem byte_cases (m : Mode) (b : Byte) :
    (m = .decoding ∧ b = END) ∨ (m = .decoding ∧ b = ESC) ∨ (∃ v, storedByte m b = some v) ∨
      (m = .escapeHandling ∧ storedByte m b = none) := by
  cases m with
  | decoding =>
    by_cases h1 : b = END
    · exact .inl ⟨rfl, h1⟩
    · by_cases h2 : b = ESC
      · exact .inr (.inl ⟨rfl, h2⟩)
      · exact .inr (.inr (.inl ⟨b, by simp [storedByte, h1, h2]⟩))
  | escapeHandling =>
    cases h : storedByte .escapeHandling b with
    | none => exact .inr (.inr (.inr ⟨rfl, rfl⟩))
    | some v => exact .inr (.inr (.inl ⟨v, rfl⟩))

/-- Everything an ON_BYTE that goes on can do (R90). -/
theorem exec_onByte_cases {s t : State} {b : Byte} (h : exec (.onByte b) s = .next t) :
    (s.dec.mode = .decoding ∧ b = END ∧ s.dec.wi = 0 ∧ t = accept s.dec s) ∨
    (s.dec.mode = .decoding ∧ b = END ∧ 0 < s.dec.wi ∧ ∃ f, s.dec.frame = some f ∧ t = emitFrame f s) ∨
    (s.dec.mode = .decoding ∧ b = ESC ∧ t = accept { s.dec with mode := .escapeHandling } s) ∨
    (∃ v, storedByte s.dec.mode b = some v ∧ s.dec.wi < s.rxCapacity ∧
      t = accept { mode := .decoding, wi := s.dec.wi + 1, rx := s.dec.rx.write s.dec.wi v } s) ∨
    (∃ v, storedByte s.dec.mode b = some v ∧ s.rxCapacity ≤ s.dec.wi ∧ t = raiseError .overflow s) ∨
    (s.dec.mode = .escapeHandling ∧ storedByte s.dec.mode b = none ∧ t = raiseError .protocolError s) := by
  obtain ⟨hm, rfl⟩ | ⟨hm, rfl⟩ | ⟨v, hv⟩ | ⟨hm, hv⟩ := byte_cases s.dec.mode b
  · rw [exec_onByte_END hm] at h
    by_cases h0 : s.dec.wi = 0
    · rw [execDEnd_of_zero h0] at h
      exact .inl ⟨hm, rfl, h0, by cases h; rfl⟩
    · rw [execDEnd_of_pos (by omega)] at h
      exact .inr (.inl ⟨hm, rfl, by omega, deliver_next h⟩)
  · rw [exec_onByte_ESC hm, execDEsc_eq] at h
    exact .inr (.inr (.inl ⟨hm, rfl, by cases h; rfl⟩))
  · rw [exec_onByte_stored hv] at h
    by_cases h0 : s.dec.wi < s.rxCapacity
    · rw [putByte_of_lt v h0] at h
      exact .inr (.inr (.inr (.inl ⟨v, hv, h0, by cases h; rfl⟩)))
    · rw [putByte_of_full v (by omega)] at h
      exact .inr (.inr (.inr (.inr (.inl ⟨v, hv, by omega, by cases h; rfl⟩))))
  · rw [exec_onByte_invalid hm hv] at h
    exact .inr (.inr (.inr (.inr (.inr ⟨hm, hv, by cases h; rfl⟩))))

/-- An ON_BYTE sets the frame signals whatever they were, so what they were does not matter to it (R70). -/
theorem exec_onByte_lowerFrameValid (b : Byte) (s : State) :
    exec (.onByte b) (lowerFrameValid s) = exec (.onByte b) s := by
  obtain ⟨hm, rfl⟩ | ⟨hm, rfl⟩ | ⟨v, hv⟩ | ⟨hm, hv⟩ := byte_cases s.dec.mode b
  · rw [exec_onByte_END hm, exec_onByte_END (s := lowerFrameValid s) hm]; rfl
  · rw [exec_onByte_ESC hm, exec_onByte_ESC (s := lowerFrameValid s) hm]; rfl
  · rw [exec_onByte_stored hv, exec_onByte_stored (s := lowerFrameValid s) hv]; rfl
  · rw [exec_onByte_invalid hm hv, exec_onByte_invalid (s := lowerFrameValid s) hm hv]; rfl

/-- In every state that holds its frame, every byte goes on (R100). -/
theorem exec_onByte_completes {s : State} (h : ∀ i, i < s.dec.wi → (s.dec.rx.read i).isSome = true) (b : Byte) :
    ∃ t, exec (.onByte b) s = .next t := by
  obtain ⟨hm, rfl⟩ | ⟨hm, rfl⟩ | ⟨v, hv⟩ | ⟨hm, hv⟩ := byte_cases s.dec.mode b
  · rw [exec_onByte_END hm]
    by_cases h0 : s.dec.wi = 0
    · exact ⟨_, execDEnd_of_zero h0⟩
    · obtain ⟨f, hf⟩ := s.dec.exists_frame h
      exact ⟨_, (execDEnd_of_pos (by omega)).trans (deliver_of_frame hf)⟩
  · exact ⟨_, exec_onByte_ESC hm⟩
  · exact ⟨_, exec_onByte_stored hv⟩
  · exact ⟨_, exec_onByte_invalid hm hv⟩

end Sys2Proof.Machine
end

