-- ==== Sys2Proof/Laws/Send.lean ====
section
/-! SUPPORT. What the send port's loop does, said once: the bytes it has written are the escaped payload, `TX` holds them at
rising indices, and nothing else has changed. -/

namespace Sys2Proof.Machine

/-- Writing bytes at rising indices from `j`. -/
def Memory.writeAll : Memory → Nat → List Byte → Memory
  | m, _, [] => m
  | m, j, v :: vs => Memory.writeAll (m.write j v) (j + 1) vs

/-- The bytes land at `j, j+1, …`; every other index is as before. -/
theorem Memory.read_writeAll (vs : List Byte) : ∀ (m : Memory) (j k : Nat),
    (m.writeAll j vs).read k = if j ≤ k ∧ k < j + vs.length then vs[k - j]? else m.read k := by
  induction vs with
  | nil => intro m j k; simp [Memory.writeAll]
  | cons v vs ih =>
    intro m j k
    simp only [Memory.writeAll, ih, Memory.read_write, List.length_cons]
    by_cases h1 : k = j
    · subst h1; simp
    · by_cases h2 : j + 1 ≤ k ∧ k < j + 1 + vs.length
      · have h3 : j ≤ k ∧ k < j + (vs.length + 1) := by omega
        have h4 : k - j = (k - (j + 1)) + 1 := by omega
        simp [h2, h3, h4]
      · have h3 : ¬ (j ≤ k ∧ k < j + (vs.length + 1)) := by omega
        rw [if_neg h2, if_neg h1, if_neg h3]

theorem Memory.wf_writeAll (vs : List Byte) : ∀ (m : Memory) (j : Nat), Memory.wf m = true →
    Memory.wf (m.writeAll j vs) = true := by
  induction vs with
  | nil => intro m j h; exact h
  | cons v vs ih => intro m j h; exact ih _ _ (Memory.wf_write j v h)

theorem Memory.writeAll_append (vs ws : List Byte) : ∀ (m : Memory) (j : Nat),
    m.writeAll j (vs ++ ws) = (m.writeAll j vs).writeAll (j + vs.length) ws := by
  induction vs with
  | nil => intro m j; rfl
  | cons v vs ih => intro m j; simp [Memory.writeAll, ih, Nat.add_assoc, Nat.add_comm 1]

/-- What emitting bytes does to the whole state. -/
theorem emitBytes_eq (vs : List Byte) : ∀ s : State,
    emitBytes vs s = { s with tx := s.tx.writeAll s.encOut.length vs, encOut := s.encOut ++ vs } := by
  induction vs with
  | nil => intro s; simp [emitBytes, Memory.writeAll]
  | cons v vs ih => intro s; simp [emitBytes, ih, emitByte, Memory.writeAll]

/-- What the loop over the payload does to the whole state. -/
theorem encodeLoop_eq (ps : List Byte) : ∀ s : State,
    encodeLoop ps s = { s with
      tx := s.tx.writeAll s.encOut.length (ps.flatMap escaped)
      encOut := s.encOut ++ ps.flatMap escaped } := by
  induction ps with
  | nil => intro s; simp [encodeLoop, Memory.writeAll]
  | cons p ps ih =>
    intro s
    simp [encodeLoop, ih, emitBytes_eq, Memory.writeAll_append]

/-- The state after an accepted ENCODE. -/
def encoded (pay : List Byte) (s : State) : State :=
  { s with
    tx := s.tx.writeAll 0 (wire pay)
    encResult := some (.ok (wire pay).length)
    encodes := s.encodes ++ [(.ok (wire pay).length, wire pay)]
    encOut := [] }

/-- The three ways an ENCODE can end (R120). -/
theorem execEncode_eq (ig : Byte) (a : EncArgs) (s : State) :
    exec (.encode ig a) s =
      if a.overlap then .refused .payTxOverlap
      else if 2 * a.pay.length + 2 > a.outCapacity then .next (rejectEncode s)
      else .next (encoded a.pay s) := by
  have : finishEncode (encodeLoop a.pay (emitByte END (beginEncode s))) = encoded a.pay s := by
    simp [encodeLoop_eq, finishEncode, emitByte, beginEncode, encoded, wire, Memory.writeAll]
  simp [exec, execEncode, encodeTooLarge, this]

/-- The output bytes of a payload byte, by the byte (R64). -/
theorem escaped_eq (p : Byte) :
    escaped p = if p = END then [ESC, ESC_END] else if p = ESC then [ESC, ESC_ESC] else [p] := by
  simp only [escaped, rowOfByte_eq]
  by_cases h1 : p = END
  · simp [h1, xEndBytes]
  · by_cases h2 : p = ESC
    · simp [h2, xEscBytes, show ESC ≠ END by decide]
    · simp [h1, h2, xDataBytes]

end Sys2Proof.Machine
end

