-- ==== Sys2Proof/Laws/Step.lean ====
section
/-! SUPPORT. The ways a step can go on, the ways an ENCODE can, and the first facts about feeding bytes: the lemmas later
proofs cite in place of unfolding `step`, `exec` and `feed`. -/

namespace Sys2Proof.Machine

/-- An ENCODE that goes on was either rejected or accepted (R120, R123). -/
theorem exec_encode_cases {s t : State} {ig : Byte} {a : EncArgs} (h : exec (.encode ig a) s = .next t) :
    a.overlap = false ∧ ((2 * a.pay.length + 2 > a.outCapacity ∧ t = rejectEncode s) ∨
      (2 * a.pay.length + 2 ≤ a.outCapacity ∧ t = encoded a.pay s)) := by
  rw [execEncode_eq] at h
  split at h
  · cases h
  · rename_i ho
    refine ⟨by simpa using ho, ?_⟩
    split at h
    · exact .inl ⟨by assumption, by cases h; rfl⟩
    · exact .inr ⟨by omega, by cases h; rfl⟩

theorem decodeTransaction_encode_op {x : Transaction} {ig : Byte} {a : EncArgs}
    (h : decodeTransaction x = .encode ig a) : opField x.cmd = 0b01#2 ∧ a = x.args := by
  simp only [decodeTransaction] at h
  split at h
  · cases h
  · split at h
    · cases h; exact ⟨by assumption, rfl⟩
    · split at h <;> cases h

/-- Everything a step that goes on can do (R21, R48, R160). -/
theorem step_cases {s t : State} (h : step s = .next t) :
    (s.pending = [] ∧ t = lowerFrameValid s) ∨
    (∃ rest, s.pending = .por :: rest ∧ t = powerOn (takeInput rest s)) ∨
    ∃ x rest, s.pending = .op x :: rest ∧
      ((∃ b, exec (.onByte b) (takeInput rest s) = .next t) ∨
       (opField x.cmd = 0b01#2 ∧ 2 * x.args.pay.length + 2 > x.args.outCapacity ∧ t = rejectEncode (takeInput rest s)) ∨
       (opField x.cmd = 0b01#2 ∧ 2 * x.args.pay.length + 2 ≤ x.args.outCapacity ∧
          t = encoded x.args.pay (takeInput rest s)) ∨
       t = resetPort (takeInput rest s)) := by
  unfold step at h
  split at h
  · rename_i hp
    exact .inl ⟨hp, by cases h; rfl⟩
  · rename_i rest hp
    exact .inr (.inl ⟨rest, hp, by cases h; rfl⟩)
  · rename_i x rest hp
    refine .inr (.inr ⟨x, rest, hp, ?_⟩)
    obtain ⟨b, hb⟩ | ⟨ig, hb⟩ | ⟨ig, hb⟩ | ⟨ig, hb⟩ := decodeTransaction_cases x
    · exact .inl ⟨b, by rw [hb] at h; exact h⟩
    · have hop := (decodeTransaction_encode_op hb).1
      rw [hb] at h
      obtain ⟨_, ⟨hc, ht⟩ | ⟨hc, ht⟩⟩ := exec_encode_cases h
      · exact .inr (.inl ⟨hop, hc, ht⟩)
      · exact .inr (.inr (.inl ⟨hop, hc, ht⟩))
    · rw [hb] at h
      exact .inr (.inr (.inr (by cases h; rfl)))
    · rw [hb] at h; cases h

/-- Feeding two streams is feeding the first and then the second. -/
theorem feed_append (xs ys : List Byte) : ∀ s t, feed xs s = .next t → feed (xs ++ ys) s = feed ys t := by
  induction xs with
  | nil => intro s t h; simp only [feed] at h; cases h; rfl
  | cons x xs ih =>
    intro s t h
    simp only [feed, List.cons_append] at h ⊢
    split at h
    · rename_i s1 _; exact ih s1 t h
    · cases h
    · cases h

/-- The escaped form of one payload byte, fed in Decoding mode below the capacity, stores that byte (R82 to R86). -/
theorem feed_escaped {s : State} (hm : s.dec.mode = .decoding) (p : Byte) (hw : s.dec.wi < s.rxCapacity) :
    ∃ t, feed (escaped p) s = .next t ∧
      t.dec = { mode := .decoding, wi := s.dec.wi + 1, rx := s.dec.rx.write s.dec.wi p } ∧
      t.rxCapacity = s.rxCapacity ∧ t.frames = s.frames ∧
      t.outcomes = s.outcomes ++ List.replicate (escaped p).length .inProgress := by
  rw [escaped_eq]
  by_cases h1 : p = END
  · subst h1
    simp only [if_true, feed, exec_onByte_ESC hm, execDEsc_eq]
    rw [exec_onByte_stored (v := END) rfl, putByte_of_lt END (by simpa using hw)]
    exact ⟨_, rfl, rfl, rfl, rfl, by simp⟩
  · by_cases h2 : p = ESC
    · subst h2
      simp only [h1, if_false, if_true, feed, exec_onByte_ESC hm, execDEsc_eq]
      rw [exec_onByte_stored (v := ESC) rfl, putByte_of_lt ESC (by simpa using hw)]
      exact ⟨_, rfl, rfl, rfl, rfl, by simp⟩
    · simp only [h1, h2, if_false, feed]
      rw [exec_onByte_stored (v := p) (by rw [hm]; simp [storedByte, h1, h2]), putByte_of_lt p hw]
      exact ⟨_, rfl, rfl, rfl, rfl, by simp⟩

end Sys2Proof.Machine
end

