-- ==== Sys2Proof/Tests/Slice0.lean ====
section
/-! SUPPORT. The model's own tests: well-formedness, words written out from the spec, single steps from the vectors of
95_test_vectors.md, and a witness for the hypotheses of every statement that has some. -/

namespace Sys2Proof.Machine.Tests

/-! ### Helpers -/

/-- A block of capacity `n` in mode `m` with `bs` in `RX[0:wi)`. -/
def block (n : Nat) (m : Mode) (bs : List Byte) : State :=
  { State.reset with
    rxCapacity := n, lenW := 16, dec := { mode := m, wi := bs.length, rx := Memory.writeAll [] 0 bs } }

/-- The same block with an input presented. -/
def blockWith (n : Nat) (m : Mode) (bs : List Byte) (h : HostInput) : State := present h (block n m bs)

/-- An operation of the host. -/
def op (c : CmdWord) : HostInput := .op { cmd := c, args := EncArgs.absent }

/-- What the receive port shows after an instruction: `(mode, wi)`, the outcome, the frame. -/
def rxAfter (o : Host.Outcome State Fault Refusal) :
    Option (Mode × Nat × Option RxOutcome × Option (List Byte)) :=
  match o with
  | .next t => some (t.dec.mode, t.dec.wi, t.rxOutcome, t.frame)
  | .fault _ => none
  | .refused _ => none

/-- The first `k` cells of `RX` after an instruction. -/
def rxCells (k : Nat) (o : Host.Outcome State Fault Refusal) : Option (List (Option Byte)) :=
  match o with
  | .next t => some ((List.range k).map t.dec.rx.read)
  | .fault _ => none
  | .refused _ => none

/-- The ENCODE result and the first `k` cells of `TX` after an instruction. -/
def txAfter (k : Nat) (o : Host.Outcome State Fault Refusal) : Option (Option EncResult × List (Option Byte)) :=
  match o with
  | .next t => some (t.encResult, (List.range k).map t.tx.read)
  | .fault _ => none
  | .refused _ => none

/-- Why an instruction was refused. -/
def refusal (o : Host.Outcome State Fault Refusal) : Option Refusal :=
  match o with
  | .next _ => none
  | .fault _ => none
  | .refused r => some r

/-- Whether an instruction goes on. -/
def goesOn (o : Host.Outcome State Fault Refusal) : Bool :=
  match o with
  | .next _ => true
  | .fault _ => false
  | .refused _ => false

theorem block_inv {n : Nat} {m : Mode} {bs : List Byte} (h : bs.length ≤ n) : BlockInv (block n m bs) where
  wi_le := h
  rx_wf := Memory.wf_writeAll bs [] 0 rfl
  rx_inside := fun i hi => by
    have : n ≤ i := hi
    simp [block, Memory.read_writeAll]; omega
  rx_held := fun i hi => by
    have : i < bs.length := hi
    simp [block, Memory.read_writeAll, this]
  tx_wf := rfl
  enc_idle := rfl
  between := fun _ h => by cases h
  valid := by simp [block, State.reset]
  events := fun _ h => by cases h
  lenW_pos := by simp [block]

/-! ### Well-formedness: each check refuses an ill-formed term -/

theorem test_wf_dData_END : Instr.wf 16 (.dData 0xC0#8) = false := by decide
theorem test_wf_dData_ESC : Instr.wf 16 (.dData 0xDB#8) = false := by decide
theorem test_wf_eInvalid_ESC_END : Instr.wf 16 (.eInvalid 0xDC#8) = false := by decide
theorem test_wf_eInvalid_ESC_ESC : Instr.wf 16 (.eInvalid 0xDD#8) = false := by decide
theorem test_wf_xData_END : Instr.wf 16 (.xData 0xC0#8) = false := by decide
theorem test_wf_xData_ESC : Instr.wf 16 (.xData 0xDB#8) = false := by decide
theorem test_wf_encode_payload_len :
    Instr.wf 1 (.encode 0#8 { pay := [1#8, 2#8], outCapacity := 1, overlap := false }) = false := by decide
theorem test_wf_encode_out_capacity :
    Instr.wf 2 (.encode 0#8 { pay := [1#8], outCapacity := 4, overlap := false }) = false := by decide
theorem test_wf_accepts : Instr.wf 16 (.dData 0xDC#8) = true ∧ Instr.wf 16 (.eInvalid 0xC0#8) = true ∧
    Instr.wf 3 (.encode 0#8 { pay := [1#8], outCapacity := 4, overlap := false }) = true := by decide

/-! ### Decoding: words written out bit by bit from R61, R63, R64 -/

theorem test_decode_onByte : decode (.cmd { cmd := 0b0001000001#10, args := EncArgs.absent }) = .onByte 0x41#8 := by decide
theorem test_decode_encode :
    decode (.cmd { cmd := 0b0100000000#10, args := { pay := [0x41#8, 0x42#8], outCapacity := 6, overlap := false } }) =
      .encode 0x00#8 { pay := [0x41#8, 0x42#8], outCapacity := 6, overlap := false } := by decide
theorem test_decode_reset : decode (.cmd { cmd := 0b1000000000#10, args := EncArgs.absent }) = .reset 0x00#8 := by decide
theorem test_decode_reserved : decode (.cmd { cmd := 0b1100000101#10, args := EncArgs.absent }) = .reserved 0x05#8 := by decide
theorem test_decode_dEnd : decode (.key 0b011000000#9) = .dEnd := by decide
theorem test_decode_dEsc : decode (.key 0b011011011#9) = .dEsc := by decide
theorem test_decode_dData : decode (.key 0b011011100#9) = .dData 0xDC#8 := by decide
theorem test_decode_eEscEnd : decode (.key 0b111011100#9) = .eEscEnd := by decide
theorem test_decode_eEscEsc : decode (.key 0b111011101#9) = .eEscEsc := by decide
theorem test_decode_eInvalid : decode (.key 0b111000000#9) = .eInvalid 0xC0#8 := by decide
theorem test_decode_xEnd : decode (.encByte 0b11000000#8) = .xEnd := by decide
theorem test_decode_xEsc : decode (.encByte 0b11011011#8) = .xEsc := by decide
theorem test_decode_xData : decode (.encByte 0b11011100#8) = .xData 0xDC#8 := by decide

/-- The opcode table's words, in the widths the table gives them (log entry 9 for 16 bits). -/
theorem test_table_words :
    decodeTableWord 16 0x000 = some (.onByte 0x00#8) ∧ decodeTableWord 16 0x200 = some (.reset 0x00#8) ∧
    decodeTableWord 16 0x300 = some (.reserved 0x00#8) ∧ decodeTableWord 16 0x0C0 = some .dEnd ∧
    decodeTableWord 16 0x1DD = some .eEscEsc ∧ decodeTableWord 9 0x000 = some (.dData 0x00#8) ∧
    decodeTableWord 9 0x100 = some (.eInvalid 0x00#8) ∧ decodeTableWord 8 0xC0 = some .xEnd ∧
    decodeTableWord 16 0x400 = none := by decide

/-- The table's words run as the first step after reset, at the capacity the spec leaves open. -/
theorem test_table_words_run_first :
    goesOn (step (State.reset.withFetchWord 16 0x000)) = true ∧ goesOn (step (State.reset.withFetchWord 16 0x100)) = true ∧
    goesOn (step (State.reset.withFetchWord 16 0x0C0)) = true ∧ goesOn (step (State.reset.withFetchWord 16 0x1DC)) = true ∧
    goesOn (step (State.reset.withFetchWord 9 0x100)) = true ∧ goesOn (step (State.reset.withFetchWord 8 0xC0)) = true :=
  ⟨rfl, rfl, rfl, rfl, rfl, rfl⟩

/-! ### Single steps, from the vectors of 95_test_vectors.md -/

/-- V-DEC-2. -/
theorem test_onByte_V_DEC_2 : rxAfter (exec (.onByte 0xC0#8) (block 4 .decoding [0x41#8, 0x42#8])) =
    some (.decoding, 0, some .frameComplete, some [0x41#8, 0x42#8]) := by decide
/-- V-DEC-14: an `END` after an `ESC` is no delimiter. -/
theorem test_onByte_V_DEC_14 : rxAfter (exec (.onByte 0xC0#8) (block 4 .escapeHandling [0x41#8])) =
    some (.decoding, 0, some .protocolError, none) := by decide
/-- V-DEC-1. -/
theorem test_dEnd_V_DEC_1 : rxAfter (exec .dEnd (block 4 .decoding [])) =
    some (.decoding, 0, some .inProgress, none) := by decide
/-- V-DEC-3: the full buffer is delivered. -/
theorem test_dEnd_V_DEC_3 : rxAfter (exec .dEnd (block 4 .decoding [1#8, 2#8, 3#8, 4#8])) =
    some (.decoding, 0, some .frameComplete, some [1#8, 2#8, 3#8, 4#8]) := by decide
/-- V-DEC-5: no Overflow on `ESC`. -/
theorem test_dEsc_V_DEC_5 : rxAfter (exec .dEsc (block 4 .decoding [1#8, 2#8, 3#8, 4#8])) =
    some (.escapeHandling, 4, some .inProgress, none) := by decide
/-- V-DEC-7: `ESC_END` is data in Decoding mode. -/
theorem test_dData_V_DEC_7 : rxCells 3 (exec (.dData 0xDC#8) (block 4 .decoding [0x41#8])) =
    some [some 0x41#8, some 0xDC#8, none] := by decide
/-- V-DEC-8. -/
theorem test_dData_V_DEC_8 : rxAfter (exec (.dData 0x41#8) (block 4 .decoding [1#8, 2#8, 3#8, 4#8])) =
    some (.decoding, 0, some .overflow, none) := by decide
/-- V-DEC-9. -/
theorem test_eEscEnd_V_DEC_9 : rxCells 2 (exec .eEscEnd (block 4 .escapeHandling [])) = some [some 0xC0#8, none] := by decide
/-- V-DEC-11. -/
theorem test_eEscEnd_V_DEC_11 : rxAfter (exec .eEscEnd (block 4 .escapeHandling [1#8, 2#8, 3#8, 4#8])) =
    some (.decoding, 0, some .overflow, none) := by decide
/-- V-DEC-10. -/
theorem test_eEscEsc_V_DEC_10 : rxCells 3 (exec .eEscEsc (block 4 .escapeHandling [0x41#8, 0x42#8])) =
    some [some 0x41#8, some 0x42#8, some 0xDB#8] := by decide
/-- V-DEC-16: ProtocolError, not Overflow. -/
theorem test_eInvalid_V_DEC_16 : rxAfter (exec (.eInvalid 0x05#8) (block 4 .escapeHandling [1#8, 2#8, 3#8, 4#8])) =
    some (.decoding, 0, some .protocolError, none) := by decide
/-- V-RST-2, its RESET: no outcome, the escape ended. -/
theorem test_reset_V_RST_2 : rxAfter (exec (.reset 0x00#8) (block 4 .escapeHandling [])) =
    some (.decoding, 0, none, none) := by decide
/-- V-ENC-10. -/
theorem test_encode_V_ENC_10 :
    txAfter 9 (exec (.encode 0#8 { pay := [0x01#8, 0xC0#8, 0x02#8, 0xDB#8, 0x03#8], outCapacity := 12, overlap := false })
      (block 4 .decoding [])) =
      some (some (.ok 8),
        [some 0xC0#8, some 0x01#8, some 0xDB#8, some 0xDC#8, some 0x02#8, some 0xDB#8, some 0xDD#8, some 0x03#8, none]) := by
  decide
/-- V-ENC-11: the two-byte output would fit, yet it is rejected and nothing is written. -/
theorem test_encode_V_ENC_11 :
    txAfter 1 (exec (.encode 0#8 { pay := [0x41#8], outCapacity := 3, overlap := false }) (block 4 .decoding [])) =
      some (some .rejected, [none]) := by decide
/-- R69(a). -/
theorem test_reserved : refusal (exec (.reserved 0x00#8) (block 4 .decoding [])) = some .reservedOp := by decide
/-- R124. -/
theorem test_xEnd : txAfter 3 (exec .xEnd (block 4 .decoding [])) = some (none, [some 0xDB#8, some 0xDC#8, none]) := by decide
/-- R125. -/
theorem test_xEsc : txAfter 3 (exec .xEsc (block 4 .decoding [])) = some (none, [some 0xDB#8, some 0xDD#8, none]) := by decide
/-- R126. -/
theorem test_xData : txAfter 2 (exec (.xData 0xDD#8) (block 4 .decoding [])) = some (none, [some 0xDD#8, none]) := by decide
/-- V-DEC-18, as a step: at `N = 0` every data byte overflows. -/
theorem test_step_V_DEC_18 : rxAfter (step (blockWith 0 .decoding [] (op 0x041#10))) =
    some (.decoding, 0, some .overflow, none) := by decide
/-- R160: power-on leaves no cell of `RX` with a value. -/
theorem test_step_powerOn : rxCells 1 (step (blockWith 4 .escapeHandling [0x41#8] .por)) = some [none] := by decide

/-- A block that has just delivered a frame and holds an ENCODE result. -/
def delivered : State :=
  { block 4 .decoding [] with rxOutcome := some .frameComplete, frame := some [0x41#8], encResult := some (.ok 8) }

/-- R70, R102: `frame_valid` is 1 for its own ON_BYTE only, so an ENCODE, a byte in progress and a wait each lower it. -/
theorem test_step_frame_valid_falls :
    [step delivered, step (present (.op { cmd := 0x100#10, args := { pay := [], outCapacity := 2, overlap := false } }) delivered),
      step (present (op 0x041#10) delivered)].map (fun o => (rxAfter o).map (fun v => v.2.2.2)) =
      [some none, some none, some none] := by decide

/-- R162: no reset affects the send port, power-on included. -/
theorem test_step_resets_keep_the_send_port :
    txAfter 0 (step (present .por delivered)) = some (some (.ok 8), []) ∧
    txAfter 0 (step (present (op 0x200#10) delivered)) = some (some (.ok 8), []) := by decide

/-! ### Witnesses: the hypotheses of each statement are met together by a concrete state and operands -/

/-- A next state that an outcome answers. -/
theorem next_of_goesOn {o : Host.Outcome State Fault Refusal} (h : goesOn o = true) : ∃ t, o = .next t := by
  cases o with
  | next t => exact ⟨t, rfl⟩
  | fault r => cases h
  | refused r => cases h

theorem witness_DecodeOfEncodedInstruction : Instr.wf 16 (.dData 0xDC#8) = true := by decide

theorem witness_StepPerformsTheDecodedOperation : (blockWith 4 .decoding [] (op 0x041#10)).pending = [op 0x041#10] ∧
    decode (.cmd { cmd := 0x041#10, args := EncArgs.absent }) = .onByte 0x41#8 := ⟨rfl, by decide⟩

theorem witness_WaitingStepKeepsTheState : (block 4 .decoding []).pending = [] := rfl

theorem witness_PowerOnGivesTheInitialState : (blockWith 4 .decoding [] .por).pending = [.por] := rfl

/-- Each of the three ends of a frame is some ON_BYTE's outcome (EveryResetGivesTheInitialState, IdempotentReset,
ErrorsDiscardTheFrameAndReset, OutcomeCodes). -/
theorem witness_ends_of_a_frame :
    (rxAfter (exec (.onByte END) (block 1 .decoding [0x41#8]))).map (fun v => v.2.2.1) = some (some .frameComplete) ∧
    (rxAfter (exec (.onByte 0x42#8) (block 1 .decoding [0x41#8]))).map (fun v => v.2.2.1) = some (some .overflow) ∧
    (rxAfter (exec (.onByte 0x42#8) (block 1 .escapeHandling [0x41#8]))).map (fun v => v.2.2.1) =
      some (some .protocolError) ∧
    goesOn (exec (.reset 0#8) (block 1 .escapeHandling [0x41#8])) = true := by decide

theorem witness_StepKeepsTheInvariant : BlockInv (block 4 .escapeHandling [0x41#8]) ∧
    goesOn (step (block 4 .escapeHandling [0x41#8])) = true := ⟨block_inv (by decide), rfl⟩

/-- A step goes on with no input, with a power-on and with an operation (StepTakesOneInputAndKeepsTheParameters,
WriteIndexFallsOnlyByReset with `wi` falling, RxIsWrittenOnlyAtTheWriteIndex with the cell changed). -/
theorem witness_steps :
    goesOn (step (block 4 .decoding [])) = true ∧ goesOn (step (blockWith 4 .decoding [] .por)) = true ∧
    (rxAfter (step (blockWith 4 .decoding [0x41#8] (op 0x200#10)))).map (fun v => v.2.1) = some 0 ∧
    rxCells 2 (step (blockWith 4 .decoding [0x41#8] (op 0x042#10))) = some [some 0x41#8, some 0x42#8] ∧
    (block 4 .decoding [0x41#8]).dec.rx.read 1 = none := by decide

/-- Each of the three alternatives of OnlyTheListedRefusalsStopARun is met under the invariant. -/
theorem witness_OnlyTheListedRefusalsStopARun : BlockInv (block 4 .decoding []) ∧
    goesOn (step (blockWith 4 .decoding [] (op 0x041#10))) = true ∧
    refusal (step (blockWith 4 .decoding [] (op 0x300#10))) = some .reservedOp ∧
    refusal (step (blockWith 4 .decoding [] (.op { cmd := 0x100#10, args := { pay := [], outCapacity := 2, overlap := true } }))) =
      some .payTxOverlap := ⟨block_inv (by decide), by decide⟩

/-- RowDEndCompletesOrIsANoOp, both clauses; DeliveredFrameIsTheBufferBelowTheIndex; the second at `wi = N`. -/
theorem witness_RowDEnd : (block 1 .decoding []).dec.mode = .decoding ∧ (block 1 .decoding []).dec.wi = 0 ∧
    BlockInv (block 1 .decoding [0x41#8]) ∧ 0 < (block 1 .decoding [0x41#8]).dec.wi ∧
    [0x41#8].length = (block 1 .decoding [0x41#8]).dec.wi ∧
    ∀ j, j < 1 → (block 1 .decoding [0x41#8]).dec.rx.read j = [0x41#8][j]? :=
  ⟨rfl, rfl, block_inv (by decide), by decide, rfl, by decide⟩

/-- A state no run reaches: `wi = 1` with no cell written. -/
theorem witness_DeliveryRefusesACellWithNoValue :
    let s := { block 4 .decoding [] with dec := { mode := .decoding, wi := 1, rx := [] } }
    0 < s.dec.wi ∧ s.dec.rx.read 0 = none := by decide

/-- The rows in Decoding mode, and the clauses of D.DATA at `wi = N - 1` and `wi = N`. -/
theorem witness_rows_decoding : (block 1 .decoding []).dec.mode = .decoding ∧
    (0xDC#8 : Byte) ≠ 0xC0#8 ∧ (0xDC#8 : Byte) ≠ 0xDB#8 ∧
    (block 1 .decoding []).dec.wi < (block 1 .decoding []).rxCapacity ∧
    (block 1 .decoding [0x41#8]).dec.wi = (block 1 .decoding [0x41#8]).rxCapacity := by decide

/-- The rows in EscapeHandling mode, and the clauses of E.ESC_END and E.ESC_ESC at `wi = N - 1` and `wi = N`. -/
theorem witness_rows_escapeHandling : (block 1 .escapeHandling []).dec.mode = .escapeHandling ∧
    (0xC0#8 : Byte) ≠ 0xDC#8 ∧ (0xC0#8 : Byte) ≠ 0xDD#8 ∧
    (block 1 .escapeHandling []).dec.wi < (block 1 .escapeHandling []).rxCapacity ∧
    (block 1 .escapeHandling [0x41#8]).dec.wi = (block 1 .escapeHandling [0x41#8]).rxCapacity := by decide

/-- WriteStepWritesOneCellOrOverflows, both clauses, at `N = 1`. -/
theorem witness_WriteStep : Decoder.powerOn.wi = 0 ∧ Decoder.powerOn.wi < 1 := by decide

/-- The five Decoding clauses of DecoderSummaryTable at their boundary values, each in a state of capacity 1 that meets the
invariant (OnByteIsDecThenAssembler, OneOutcomePerByte, DeliveredFramesAreNeverEmpty, WriteIndexFitsTheSmallestWidth). -/
theorem witness_DecoderSummaryTable_decoding :
    (BlockInv (block 1 .decoding []) ∧ BlockInv (block 1 .decoding [0x41#8])) ∧
    rxAfter (exec (.onByte 0xC0#8) (block 1 .decoding [])) = some (.decoding, 0, some .inProgress, none) ∧
    rxAfter (exec (.onByte 0xC0#8) (block 1 .decoding [0x41#8])) = some (.decoding, 0, some .frameComplete, some [0x41#8]) ∧
    rxAfter (exec (.onByte 0xDB#8) (block 1 .decoding [0x41#8])) = some (.escapeHandling, 1, some .inProgress, none) ∧
    rxAfter (exec (.onByte 0xDC#8) (block 1 .decoding [])) = some (.decoding, 1, some .inProgress, none) ∧
    rxAfter (exec (.onByte 0xDC#8) (block 1 .decoding [0x41#8])) = some (.decoding, 0, some .overflow, none) :=
  ⟨⟨block_inv (by decide), block_inv (by decide)⟩, by decide, by decide, by decide, by decide, by decide⟩

/-- The four EscapeHandling clauses of DecoderSummaryTable, likewise. -/
theorem witness_DecoderSummaryTable_escapeHandling :
    (BlockInv (block 1 .escapeHandling []) ∧ BlockInv (block 1 .escapeHandling [0x41#8])) ∧
    rxAfter (exec (.onByte 0xDC#8) (block 1 .escapeHandling [])) = some (.decoding, 1, some .inProgress, none) ∧
    rxAfter (exec (.onByte 0xDD#8) (block 1 .escapeHandling [])) = some (.decoding, 1, some .inProgress, none) ∧
    rxAfter (exec (.onByte 0xDD#8) (block 1 .escapeHandling [0x41#8])) = some (.decoding, 0, some .overflow, none) ∧
    rxAfter (exec (.onByte 0xDB#8) (block 1 .escapeHandling [0x41#8])) = some (.decoding, 0, some .protocolError, none) :=
  ⟨⟨block_inv (by decide), block_inv (by decide)⟩, by decide, by decide, by decide, by decide⟩

/-- StaleBytesNeverReachAFrame: two blocks whose `RX` differs outside `[0, wi)`, and a stream that goes on in one. -/
theorem witness_StaleBytesNeverReachAFrame :
    let s := block 4 .decoding []
    let t := { s with dec := { s.dec with rx := [(0, 0x99#8)] } }
    SameReceive s t ∧ s ≠ t ∧ goesOn (feed [0x41#8] s) = true := by
  refine ⟨⟨rfl, rfl, rfl, fun i hi => absurd hi (Nat.not_lt_zero i)⟩, ?_, rfl⟩
  intro h
  have : (block 4 .decoding []).dec.rx = [(0, 0x99#8)] := by rw [h]
  exact absurd this (by decide)

/-- WriteIndexFallsOnlyWhereResetRuns: `wi` falls from 1 in a step of each of its alternatives: RESET, FrameComplete,
Overflow, ProtocolError. -/
theorem witness_WriteIndexFallsOnlyWhereResetRuns :
    [blockWith 1 .decoding [0x41#8] (op 0x200#10), blockWith 1 .decoding [0x41#8] (op 0x0C0#10),
      blockWith 1 .decoding [0x41#8] (op 0x042#10), blockWith 1 .escapeHandling [0x41#8] (op 0x042#10)].map
      (fun s => (s.dec.wi, (rxAfter (step s)).map (fun v => (v.2.1, v.2.2.1)))) =
      [(1, some (0, none)), (1, some (0, some .frameComplete)), (1, some (0, some .overflow)),
        (1, some (0, some .protocolError))] := by decide

/-- FrameValidExactlyOnACompletingByte: a step with `frame_valid = 1` and the frame of its second clause. -/
theorem witness_FrameValid : (rxAfter (step (blockWith 1 .decoding [0x41#8] (op 0x0C0#10)))).map (fun v => v.2.2) =
    some (some .frameComplete, some [0x41#8]) := by decide

theorem witness_StepsPerformTheFedBytes :
    (blockWith 4 .decoding [] (op 0x041#10)).pending = byteInputs [0x41#8] ++ [] := by decide

/-- EncodeWritesTheWireForm, EncodeIsRejectedExactlyWhenTooLarge, EncodedLengthAndItsBounds, EscapingIsCorrect,
EncodeIsPure, EncodeResultCodes, TxIsWrittenOnlyByAnAcceptedEncode: both sides of `2*L + 2 = C` (R129(c), R129(d)). -/
theorem witness_ENCODE :
    (txAfter 3 (exec (.encode 0#8 { pay := [0xC0#8], outCapacity := 4, overlap := false }) (block 4 .decoding []))) =
      some (some (.ok 3), [some 0xC0#8, some 0xDB#8, some 0xDC#8]) ∧
    (txAfter 1 (exec (.encode 0#8 { pay := [0xC0#8], outCapacity := 3, overlap := false }) (block 4 .decoding []))) =
      some (some .rejected, [none]) ∧
    4 < 2 ^ (block 4 .decoding []).lenW := by decide

theorem witness_OverlappingEncodeIsRefused :
    ({ pay := [0x41#8], outCapacity := 6, overlap := true } : EncArgs).overlap = true := rfl

theorem witness_RowXData : (0xDC#8 : Byte) ≠ 0xC0#8 ∧ (0xDC#8 : Byte) ≠ 0xDB#8 := by decide

/-- PortsAreIndependent: a byte that completes a frame and an ENCODE that is accepted both go on. -/
theorem witness_PortsAreIndependent :
    goesOn (exec (.onByte END) (block 4 .decoding [0x41#8])) = true ∧
    goesOn (exec (.encode 0#8 { pay := [0x41#8], outCapacity := 4, overlap := false }) (block 4 .decoding [0x41#8])) = true := by
  decide

/-- RoundTripDeliversThePayload: from the initial state, from mid-frame and from an escape; and the initial state of its
second part (BackToBackFramesAreToldApart). -/
theorem witness_RoundTrip : BlockInv (block 1 .decoding []) ∧ (block 1 .decoding []).dec.initial ∧
    BlockInv (block 1 .decoding [0x99#8]) ∧ BlockInv (block 1 .escapeHandling [0x99#8]) ∧
    1 ≤ [0xC0#8].length ∧ [0xC0#8].length ≤ (block 1 .decoding []).rxCapacity :=
  ⟨block_inv (by decide), ⟨rfl, rfl⟩, block_inv (by decide), block_inv (by decide), by decide, by decide⟩

theorem witness_OneByteOverTheCapacityOverflows : BlockInv (block 1 .decoding []) ∧
    (block 1 .decoding []).dec.initial ∧ [0x41#8, 0xC0#8].length = (block 1 .decoding []).rxCapacity + 1 :=
  ⟨block_inv (by decide), ⟨rfl, rfl⟩, rfl⟩

end Sys2Proof.Machine.Tests
end

section
/-! The encode table of R64, row by row. -/

namespace Sys2Proof.Machine

/-- Mask `0xFF` of an encode row compares the whole byte. -/
theorem byte_and_fullMask (p : Byte) : p &&& 0xFF#8 = p := BitVec.and_allOnes

/-- Settles O5: the masks leave "is `END`", "is `ESC`" and "any byte", the cases of `rowOfByte_eq` and `escaped_eq`. -/
theorem encodeTableRowsInPriorityOrder : Obligations.EncodeTableRowsInPriorityOrder := by
  intro p
  rw [rowOfByte_eq, escaped_eq]
  by_cases hEnd : p = END
  · subst hEnd
    rfl
  by_cases hEsc : p = ESC
  · subst hEsc
    rfl
  have notEnd : (p == 0xC0#8) = false := beq_false_of_ne hEnd
  have notEsc : (p == 0xDB#8) = false := beq_false_of_ne hEsc
  simp [byte_and_fullMask, notEnd, notEsc, hEnd, hEsc]

end Sys2Proof.Machine
end

section
/-! Which steps stop (R144): a step by its next input, the command word of the reserved refusal, the two ways of an ENCODE. -/

namespace Sys2Proof.Machine

theorem step_of_no_input {s : State} (h : s.pending = []) : step s = .next (lowerFrameValid s) := by
  simp [step, h]

theorem step_of_por {s : State} {rest : List HostInput} (h : s.pending = .por :: rest) :
    step s = .next (powerOn (takeInput rest s)) := by
  simp [step, h]

theorem step_of_op {s : State} {x : Transaction} {rest : List HostInput} (h : s.pending = .op x :: rest) :
    step s = exec (decodeTransaction x) (takeInput rest s) := by
  simp [step, h]

theorem exec_reset_eq (ig : Byte) (s : State) : exec (.reset ig) s = .next (resetPort s) := rfl

theorem exec_reserved_eq (ig : Byte) (s : State) : exec (.reserved ig) s = .refused .reservedOp := rfl

/-- Only the three operations' command words are taken before the reserved one (R61). -/
theorem decodeTransaction_reserved_op {x : Transaction} {ig : Byte} (h : decodeTransaction x = .reserved ig) :
    opField x.cmd = 0b11#2 := by
  obtain ⟨c, a⟩ := x
  have four : ∀ op : BitVec 2, op = 0b00#2 ∨ op = 0b01#2 ∨ op = 0b10#2 ∨ op = 0b11#2 := by decide
  rw [← cmdWord_fields c] at h
  obtain hop | hop | hop | hop := four (opField c)
  · rw [hop, decodeTransaction_onByte] at h
    cases h
  · rw [hop, decodeTransaction_encode] at h
    cases h
  · rw [hop, decodeTransaction_reset] at h
    cases h
  · exact hop

theorem exec_encode_overlap {a : EncArgs} (h : a.overlap = true) (ig : Byte) (s : State) :
    exec (.encode ig a) s = .refused .payTxOverlap := by
  rw [execEncode_eq, if_pos h]

/-- A rejection goes on too: `EncodeRejected` is a result, not a stop (R123, R144). -/
theorem exec_encode_completes {a : EncArgs} (h : a.overlap = false) (ig : Byte) (s : State) :
    ∃ t, exec (.encode ig a) s = .next t := by
  rw [execEncode_eq, if_neg (by simp [h])]
  by_cases hc : 2 * a.pay.length + 2 > a.outCapacity
  · exact ⟨_, if_pos hc⟩
  · exact ⟨_, if_neg hc⟩

/-- Settles O14: by the next input and the operation it decodes to. An ON_BYTE goes on because every cell below `wi` was
written (`BlockInv.rx_held`, R26(b)), so that no frame delivery is refused. -/
theorem onlyTheListedRefusalsStopARun : Obligations.OnlyTheListedRefusalsStopARun := by
  intro s inv
  match hp : s.pending with
  | [] => exact .inl ⟨_, step_of_no_input hp⟩
  | .por :: rest => exact .inl ⟨_, step_of_por hp⟩
  | .op x :: rest =>
    rw [step_of_op hp]
    obtain ⟨b, hx⟩ | ⟨ig, hx⟩ | ⟨ig, hx⟩ | ⟨ig, hx⟩ := decodeTransaction_cases x
    · rw [hx]
      exact .inl (exec_onByte_completes (s := takeInput rest s) inv.rx_held b)
    · obtain ⟨hop, -⟩ := decodeTransaction_encode_op hx
      rw [hx]
      cases ho : x.args.overlap with
      | false => exact .inl (exec_encode_completes ho ig _)
      | true => exact .inr (.inr ⟨x, rest, rfl, hop, ho, exec_encode_overlap ho ig _⟩)
    · rw [hx]
      exact .inl ⟨_, exec_reset_eq ig _⟩
    · have hop := decodeTransaction_reserved_op hx
      rw [hx]
      exact .inr (.inl ⟨x, rest, rfl, hop, exec_reserved_eq ig _⟩)

end Sys2Proof.Machine
end

section
/-! The three word formats: a decode key is its mode and its byte, and decoding and encoding are each other's inverses. -/

namespace Sys2Proof.Machine

/-! ### Decode keys (R63) -/

/-- A decode key is the key of its two fields. -/
theorem key_fields (k : Key) : key (modeOfKey k) (keyByte k) = k := by
  revert k; decide

/-- Mask `0x1FF` of an exact row compares the whole key. -/
theorem key_and_fullMask (k : Key) : k &&& 0x1FF#9 = k := BitVec.and_allOnes

/-- Mask `0x100` of a catch-all row compares the mode bit. -/
theorem key_and_modeMask (m : Mode) (b : Byte) :
    key m b &&& 0x100#9 = if m = .decoding then 0x000#9 else 0x100#9 := by
  cases m <;> (revert b; decide)

/-- The instruction a byte selects in Decoding mode. -/
theorem decodeKey_decoding (b : Byte) :
    decodeKey (key .decoding b) = if b = END then .dEnd else if b = ESC then .dEsc else .dData b := by
  rw [decodeKey, rowOfKey_decoding, keyByte_key]
  split_ifs <;> rfl

/-- The instruction a byte selects in EscapeHandling mode. -/
theorem decodeKey_escapeHandling (b : Byte) :
    decodeKey (key .escapeHandling b) =
      if b = ESC_END then .eEscEnd else if b = ESC_ESC then .eEscEsc else .eInvalid b := by
  rw [decodeKey, rowOfKey_escapeHandling, keyByte_key]
  split_ifs <;> rfl

/-- The instruction a payload byte selects. -/
theorem decodeEncByte_eq (p : Byte) :
    decodeEncByte p = if p = END then .xEnd else if p = ESC then .xEsc else .xData p := by
  rw [decodeEncByte, rowOfByte_eq]
  split_ifs <;> rfl

/-! ### Encoding a decoded word -/

theorem encode_decodeKey (k : Key) : encode (decodeKey k) = .key k := by
  rw [← key_fields k]
  generalize keyByte k = b
  cases modeOfKey k with
  | decoding =>
    rw [decodeKey_decoding]
    split_ifs with hEnd hEsc
    · subst hEnd; rfl
    · subst hEsc; rfl
    · rfl
  | escapeHandling =>
    rw [decodeKey_escapeHandling]
    split_ifs with hEnd hEsc
    · subst hEnd; rfl
    · subst hEsc; rfl
    · rfl

theorem encode_decodeEncByte (p : Byte) : encode (decodeEncByte p) = .encByte p := by
  rw [decodeEncByte_eq]
  split_ifs with hEnd hEsc
  · rw [hEnd]; rfl
  · rw [hEsc]; rfl
  · rfl

/-- Every code of the field `op` is taken (R61). -/
theorem op_cases : ∀ op : BitVec 2, op = 0b00#2 ∨ op = 0b01#2 ∨ op = 0b10#2 ∨ op = 0b11#2 := by decide

/-- The operands of an ENCODE are kept; the other operations have none (R61). -/
theorem encode_decodeTransaction_cmdWord (op : BitVec 2) (b : Byte) (a : EncArgs) :
    encode (decodeTransaction { cmd := cmdWord op b, args := a }) =
      .cmd { cmd := cmdWord op b, args := if op = 0b01#2 then a else EncArgs.absent } := by
  obtain rfl | rfl | rfl | rfl := op_cases op
  · rw [decodeTransaction_onByte]; rfl
  · rw [decodeTransaction_encode]; rfl
  · rw [decodeTransaction_reset]; rfl
  · rw [decodeTransaction_reserved]; rfl

/-- Settles O1, constructor by constructor. -/
theorem decodeOfEncodedInstruction : Obligations.DecodeOfEncodedInstruction := by
  intro lenW i
  cases i with
  | onByte b => exact Laws.RoundTrip.onByte b lenW
  | encode ig a => exact Laws.RoundTrip.encode ig a lenW
  | reset ig => exact Laws.RoundTrip.reset ig lenW
  | reserved ig => exact Laws.RoundTrip.reserved ig lenW
  | dEnd => exact Laws.RoundTrip.dEnd lenW
  | dEsc => exact Laws.RoundTrip.dEsc lenW
  | dData b => exact Laws.RoundTrip.dData b lenW
  | eEscEnd => exact Laws.RoundTrip.eEscEnd lenW
  | eEscEsc => exact Laws.RoundTrip.eEscEsc lenW
  | eInvalid b => exact Laws.RoundTrip.eInvalid b lenW
  | xEnd => exact Laws.RoundTrip.xEnd lenW
  | xEsc => exact Laws.RoundTrip.xEsc lenW
  | xData p => exact Laws.RoundTrip.xData p lenW

/-- Settles O2: each word is split into its fields. -/
theorem encodeOfDecodedWord : Obligations.EncodeOfDecodedWord := by
  refine ⟨encode_decodeKey, encode_decodeEncByte, fun c a => ?_⟩
  simpa only [cmdWord_fields] using encode_decodeTransaction_cmdWord (opField c) (byteField c) a

/-- Settles O3. -/
theorem commandWordSelectsOneOperation : Obligations.CommandWordSelectsOneOperation := fun b a =>
  ⟨decodeTransaction_onByte b a, decodeTransaction_encode b a, decodeTransaction_reset b a,
    decodeTransaction_reserved b a⟩

/-- Settles O6: ten fixed words. -/
theorem sampleWordsDecode : Obligations.SampleWordsDecode := by
  unfold Obligations.SampleWordsDecode
  decide

/-- ON_BYTE is the instruction its key selects (R80, R100). -/
theorem exec_onByte_eq_row (s : State) (b : Byte) :
    exec (.onByte b) s = exec ((rowOfKey (key s.dec.mode b)).instr b) s := by
  simp only [exec, execOnByte]
  cases rowOfKey (key s.dec.mode b) <;> rfl

/-- Settles O4: under the full mask a row compares the whole key, under mask `0x100` its mode bit, and the conditions of
`rowOfKey` are those of the rows in their order. -/
theorem decodeTableRowsInPriorityOrder : Obligations.DecodeTableRowsInPriorityOrder := by
  refine ⟨fun k => ?_, fun b => ⟨rfl, rfl⟩, exec_onByte_eq_row⟩
  have modeBit : k &&& 0x100#9 = 0x000#9 ∨ k &&& 0x100#9 = 0x100#9 := by
    have h := key_and_modeMask (modeOfKey k) (keyByte k)
    rw [key_fields] at h
    rw [h]
    split_ifs <;> simp
  have oneCatchAll : [(0x000#9, 0x100#9, DRow.dData), (0x100#9, 0x100#9, .eInvalid)].countP
      (fun r => k &&& r.2.1 == r.1) = 1 := by
    obtain h | h := modeBit <;> simp [h]
  refine ⟨?_, ?_, oneCatchAll⟩
  · simp only [rowOfKey, key_and_fullMask]
    by_cases h1 : k = 0x0C0#9
    · subst h1; rfl
    by_cases h2 : k = 0x0DB#9
    · subst h2; rfl
    by_cases h3 : k = 0x1DC#9
    · subst h3; rfl
    by_cases h4 : k = 0x1DD#9
    · subst h4; rfl
    obtain h | h := modeBit <;> simp [key_and_fullMask, h1, h2, h3, h4, h]
  · -- A key equals at most one of the four exact rows' matches.
    simp only [List.countP_cons, List.countP_nil, key_and_fullMask, beq_iff_eq]
    split_ifs <;> simp_all

end Sys2Proof.Machine
end

section
/-! The rows of the per-byte transition `dec`, and ON_BYTE as `dec` followed by the assembler's case on its outcome. -/

namespace Sys2Proof.Machine

/-! ### The rows of `dec` (R81 to R87) -/

theorem dec_decoding (n : Nat) {d : Decoder} (h : d.mode = .decoding) (b : Byte) :
    dec n d b = if b = END then decDEnd d else if b = ESC then decDEsc d else put n d b := by
  simp only [dec, h, rowOfKey_decoding]
  split_ifs <;> rfl

theorem dec_escapeHandling (n : Nat) {d : Decoder} (h : d.mode = .escapeHandling) (b : Byte) :
    dec n d b = if b = ESC_END then put n d END else if b = ESC_ESC then put n d ESC else decEInvalid d := by
  simp only [dec, h, rowOfKey_escapeHandling]
  split_ifs <;> rfl

/-- Settles O15. -/
theorem decodingRowsOfTheTransition : Obligations.DecodingRowsOfTheTransition := by
  intro n d b hm
  rw [dec_decoding n hm, hm, decodeKey_decoding, key_and_modeMask]
  refine ⟨?_, ?_, ?_⟩
  · rintro rfl
    exact ⟨rfl, rfl, fun hpos => if_pos hpos, fun h0 => if_neg h0.not_gt⟩
  · rintro rfl
    exact ⟨rfl, rfl, rfl⟩
  · intro (hEnd : b ≠ END) (hEsc : b ≠ ESC)
    simp only [if_neg hEnd, if_neg hEsc, true_and]
    exact ⟨rfl, fun hlt => congrArg Prod.fst (put_of_lt b hlt), fun heq => put_of_full b heq.ge⟩

/-- Settles O16. -/
theorem escapeHandlingRowsOfTheTransition : Obligations.EscapeHandlingRowsOfTheTransition := by
  intro n d b hm
  rw [dec_escapeHandling n hm, hm, decodeKey_escapeHandling, key_and_modeMask]
  refine ⟨?_, ?_, ?_⟩
  · rintro rfl
    exact ⟨rfl, rfl, rfl, fun hlt => congrArg Prod.fst (put_of_lt END hlt), fun heq => put_of_full END heq.ge⟩
  · rintro rfl
    exact ⟨rfl, rfl, rfl, fun hlt => congrArg Prod.fst (put_of_lt ESC hlt), fun heq => put_of_full ESC heq.ge⟩
  · intro (hEnd : b ≠ ESC_END) (hEsc : b ≠ ESC_ESC)
    simp only [if_neg hEnd, if_neg hEsc, true_and]
    exact ⟨rfl, rfl⟩

/-- Settles O24. -/
theorem writeStepWritesOneCellOrOverflows : Obligations.WriteStepWritesOneCellOrOverflows := fun _ d v =>
  ⟨fun heq => put_of_full v heq.ge,
    fun hlt => ⟨_, put_of_lt v hlt, hlt, fun k => Memory.read_write d.rx d.wi k v⟩⟩

/-! ### ON_BYTE as a whole next state (R100) -/

theorem exec_onByte_eq_assemble (s : State) (b : Byte) :
    exec (.onByte b) s = assemble (dec s.rxCapacity s.dec b) s := by
  simp only [exec, execOnByte, dec]
  cases rowOfKey (key s.dec.mode b) with
  | dEnd => rfl
  | dEsc => rfl
  | dData => exact (assemble_put b s).symm
  | eEscEnd => exact (assemble_put END s).symm
  | eEscEsc => exact (assemble_put ESC s).symm
  | eInvalid => rfl

/-- Settles O25: `assemble` is the statement's case on the outcome; a run never meets its refusal because every cell below
`wi` was written (`BlockInv.rx_held`). -/
theorem onByteIsDecThenAssembler : Obligations.OnByteIsDecThenAssembler := by
  refine fun s b => ⟨decodeTransaction_onByte b, ?_, fun inv => exec_onByte_completes inv.rx_held b⟩
  rw [exec_onByte_eq_assemble]
  obtain ⟨o, d⟩ := dec s.rxCapacity s.dec b
  cases o with
  | inProgress => rfl
  | frameComplete =>
    simp only [assemble, deliver]
    cases s.dec.frame <;> rfl
  | overflow => rfl
  | protocolError => rfl

/-! ### The rows as instructions -/

/-- Settles O17. -/
theorem rowDEndCompletesOrIsANoOp : Obligations.RowDEndCompletesOrIsANoOp := by
  refine fun s hm => ⟨exec_onByte_END hm, execDEnd_of_zero, fun hpos f hlen hcells => ?_⟩
  exact (execDEnd_of_pos hpos).trans (deliver_of_frame ((s.dec.frame_eq_some f).2 ⟨hlen, hcells⟩))

/-- Settles O18: a frame would list the cell's value. -/
theorem deliveryRefusesACellWithNoValue : Obligations.DeliveryRefusesACellWithNoValue := by
  intro s i hi hnone
  have noFrame : s.dec.frame = none := by
    refine Option.eq_none_iff_forall_not_mem.2 fun f hf => ?_
    obtain ⟨hlen, hcells⟩ := (s.dec.frame_eq_some f).1 hf
    have hlast := (hcells i hi).symm.trans hnone
    rw [List.getElem?_eq_none_iff] at hlast
    omega
  refine (execDEnd_of_pos (by omega)).trans ?_
  simp [deliver, noFrame]

/-- Settles O19. -/
theorem rowDEscOpensAnEscape : Obligations.RowDEscOpensAnEscape :=
  fun s hm => ⟨exec_onByte_ESC hm, execDEsc_eq s⟩

/-- The byte a mode stores from a received byte, in the words of the rows' conditions. -/
theorem storedByte_decoding {b : Byte} (hEnd : b ≠ END) (hEsc : b ≠ ESC) : storedByte .decoding b = some b := by
  simp [storedByte, hEnd, hEsc]

theorem storedByte_invalid {b : Byte} (hEnd : b ≠ ESC_END) (hEsc : b ≠ ESC_ESC) :
    storedByte .escapeHandling b = none := by
  simp [storedByte, hEnd, hEsc]

/-- Settles O20. -/
theorem rowDDataStoresTheByte : Obligations.RowDDataStoresTheByte := by
  intro s b hm hEnd hEsc
  have hstored : storedByte s.dec.mode b = some b := by rw [hm]; exact storedByte_decoding hEnd hEsc
  exact ⟨exec_onByte_stored hstored, fun hlt => congrArg _ (putByte_of_lt b hlt),
    fun heq => congrArg _ (putByte_of_full b heq.ge)⟩

/-- Settles O21. -/
theorem rowEEscEndStoresEND : Obligations.RowEEscEndStoresEND := by
  intro s hm
  have hstored : storedByte s.dec.mode ESC_END = some END := by rw [hm]; rfl
  exact ⟨exec_onByte_stored hstored, fun hlt => congrArg _ (putByte_of_lt END hlt),
    fun heq => congrArg _ (putByte_of_full END heq.ge)⟩

/-- Settles O22. -/
theorem rowEEscEscStoresESC : Obligations.RowEEscEscStoresESC := by
  intro s hm
  have hstored : storedByte s.dec.mode ESC_ESC = some ESC := by rw [hm]; rfl
  exact ⟨exec_onByte_stored hstored, fun hlt => congrArg _ (putByte_of_lt ESC hlt),
    fun heq => congrArg _ (putByte_of_full ESC heq.ge)⟩

/-- Settles O23. -/
theorem rowEInvalidIsAProtocolError : Obligations.RowEInvalidIsAProtocolError := by
  intro s b hm hEnd hEsc
  have hnone : storedByte s.dec.mode b = none := by rw [hm]; exact storedByte_invalid hEnd hEsc
  exact ⟨exec_onByte_invalid hm hnone, execEInvalid_eq b s⟩

/-- Settles O30. -/
theorem resetEndsAFrameSilently : Obligations.ResetEndsAFrameSilently :=
  fun s ig a => ⟨decodeTransaction_reset ig a, exec_reset_eq ig s⟩

/-- Settles O55. -/
theorem reservedWordIsRefused : Obligations.ReservedWordIsRefused := fun s ig => exec_reserved_eq ig s

end Sys2Proof.Machine
end

section
/-! How an ON_BYTE ends: it is accepted, it delivers a frame, or it raises an error. What each end changes is said by the
update's own lemmas. -/

namespace Sys2Proof.Machine

/-- An ON_BYTE that goes on ends as `assemble` says, by its outcome (R100 to R103). -/
theorem exec_onByte_ends {s t : State} {b : Byte} (h : exec (.onByte b) s = .next t) :
    (∃ d, t = accept d s) ∨ (∃ f, s.dec.frame = some f ∧ 0 < s.dec.wi ∧ t = emitFrame f s) ∨
      ∃ o, (o = .overflow ∨ o = .protocolError) ∧ t = raiseError o s := by
  obtain ⟨-, -, -, ht⟩ | ⟨-, -, hpos, f, hf, ht⟩ | ⟨-, -, ht⟩ | ⟨v, -, -, ht⟩ | ⟨v, -, -, ht⟩ | ⟨-, -, ht⟩ :=
    exec_onByte_cases h
  · exact .inl ⟨_, ht⟩
  · exact .inr (.inl ⟨f, hf, hpos, ht⟩)
  · exact .inl ⟨_, ht⟩
  · exact .inl ⟨_, ht⟩
  · exact .inr (.inr ⟨_, .inl rfl, ht⟩)
  · exact .inr (.inr ⟨_, .inr rfl, ht⟩)

/-- What an ON_BYTE leaves unchanged: the parameters, the send port and the host's sequence (R50). -/
theorem exec_onByte_unchanged {s t : State} {b : Byte} (h : exec (.onByte b) s = .next t) :
    t.rxCapacity = s.rxCapacity ∧ t.lenW = s.lenW ∧ t.tx = s.tx ∧ t.encResult = s.encResult ∧ t.encOut = s.encOut ∧
      t.encodes = s.encodes ∧ t.pending = s.pending ∧ t.pos = s.pos := by
  obtain ⟨d, rfl⟩ | ⟨f, -, -, rfl⟩ | ⟨o, -, rfl⟩ := exec_onByte_ends h
  · simp
  · simp
  · simp

/-- An outcome that ends a frame resets the decoder (R102, R103). -/
theorem exec_onByte_end_dec {s t : State} {b : Byte} (h : exec (.onByte b) s = .next t)
    (ho : t.rxOutcome = some .frameComplete ∨ t.rxOutcome = some .overflow ∨ t.rxOutcome = some .protocolError) :
    t.dec = s.dec.reset := by
  obtain ⟨d, rfl⟩ | ⟨f, -, -, rfl⟩ | ⟨o, -, rfl⟩ := exec_onByte_ends h
  · simp at ho
  · rfl
  · rfl

/-- `RX` keeps its cells, or a byte is stored at `wi` below the capacity and counted (R86). -/
theorem exec_onByte_rx {s t : State} {b : Byte} (h : exec (.onByte b) s = .next t) :
    t.dec.rx = s.dec.rx ∨ ∃ v, s.dec.wi < s.rxCapacity ∧ t.dec.wi = s.dec.wi + 1 ∧
      t.dec.rx = s.dec.rx.write s.dec.wi v := by
  obtain ⟨-, -, -, rfl⟩ | ⟨-, -, -, f, -, rfl⟩ | ⟨-, -, rfl⟩ | ⟨v, -, hlt, rfl⟩ | ⟨v, -, -, rfl⟩ | ⟨-, -, rfl⟩ :=
    exec_onByte_cases h
  · exact .inl rfl
  · exact .inl rfl
  · exact .inl rfl
  · exact .inr ⟨v, hlt, rfl, rfl⟩
  · exact .inl rfl
  · exact .inl rfl

/-- Where an ON_BYTE is in progress `wi` stays or grows by one; elsewhere the decoder is reset (R101 to R104). -/
theorem exec_onByte_wi {s t : State} {b : Byte} (h : exec (.onByte b) s = .next t) :
    (s.dec.wi ≤ t.dec.wi ∧ t.dec.wi ≤ s.dec.wi + 1) ∨ (t.dec = s.dec.reset ∧
      (t.rxOutcome = some .frameComplete ∨ t.rxOutcome = some .overflow ∨ t.rxOutcome = some .protocolError)) := by
  obtain ⟨-, -, -, rfl⟩ | ⟨-, -, -, f, -, rfl⟩ | ⟨-, -, rfl⟩ | ⟨v, -, hlt, rfl⟩ | ⟨v, -, -, rfl⟩ | ⟨-, -, rfl⟩ :=
    exec_onByte_cases h
  · simp
  · simp
  · simp
  · simp
  · simp
  · simp

/-- Settles O28. -/
theorem errorsDiscardTheFrameAndReset : Obligations.ErrorsDiscardTheFrameAndReset := by
  intro s t b o h hout herr
  obtain ⟨d, rfl⟩ | ⟨f, -, -, rfl⟩ | ⟨o', -, rfl⟩ := exec_onByte_ends h
  · obtain rfl : RxOutcome.inProgress = o := by simpa using hout
    simp at herr
  · obtain rfl : RxOutcome.frameComplete = o := by simpa using hout
    simp at herr
  · obtain rfl : o' = o := by simpa using hout
    rfl

/-- Settles O31. -/
theorem idempotentReset : Obligations.IdempotentReset := by
  refine ⟨fun s t b h ho => ?_, fun s t ig h => ?_⟩
  · rw [exec_onByte_end_dec h ho]
    exact ⟨rfl, rfl⟩
  · rw [exec_reset_eq] at h
    cases h
    exact ⟨rfl, rfl⟩

/-- Settles O10. -/
theorem everyResetGivesTheInitialState : Obligations.EveryResetGivesTheInitialState := by
  refine ⟨⟨rfl, rfl, Memory.read_nil⟩, fun s rest hp => ?_, fun s ig => ?_, fun s t b h ho => ?_⟩
  · exact ⟨_, step_of_por hp, rfl, rfl, Memory.read_nil, rfl, rfl, rfl⟩
  · exact ⟨_, exec_reset_eq ig s, rfl, rfl, rfl, rfl, rfl⟩
  · obtain ⟨-, -, htx, hres, hout, hencs, -, -⟩ := exec_onByte_unchanged h
    exact ⟨exec_onByte_end_dec h ho, htx, hres, hout, hencs⟩

/-- Settles O53. -/
theorem outcomeCodes : Obligations.OutcomeCodes := by
  refine ⟨rfl, rfl, rfl, rfl, fun c => ?_, fun s t b h => ?_⟩
  · obtain rfl | rfl | rfl | rfl := op_cases c
    · exact ⟨.inProgress, rfl⟩
    · exact ⟨.frameComplete, rfl⟩
    · exact ⟨.overflow, rfl⟩
    · exact ⟨.protocolError, rfl⟩
  · obtain ⟨d, rfl⟩ | ⟨f, -, -, rfl⟩ | ⟨o, -, rfl⟩ := exec_onByte_ends h
    · exact ⟨_, rfl⟩
    · exact ⟨_, rfl⟩
    · exact ⟨_, rfl⟩

/-! ### From a state that meets the invariant -/

/-- A frame in progress can be read, and it has `wi` bytes (R26(b), R102). -/
theorem BlockInv.exists_frame {s : State} (inv : BlockInv s) :
    ∃ f, s.dec.frame = some f ∧ f.length = s.dec.wi ∧ ∀ j, j < s.dec.wi → s.dec.rx.read j = f[j]? := by
  obtain ⟨f, hf⟩ := s.dec.exists_frame inv.rx_held
  exact ⟨f, hf, (s.dec.frame_eq_some f).1 hf⟩

/-- A frame delimiter with a frame in progress delivers it. -/
theorem exec_END_of_frame {s : State} {f : List Byte} (hm : s.dec.mode = .decoding) (hpos : 0 < s.dec.wi)
    (hf : s.dec.frame = some f) : exec (.onByte END) s = .next (emitFrame f s) :=
  (exec_onByte_END hm).trans ((execDEnd_of_pos hpos).trans (deliver_of_frame hf))

/-- A frame delimiter with no byte in progress changes nothing but the outcome. -/
theorem exec_END_of_zero {s : State} (hm : s.dec.mode = .decoding) (h0 : s.dec.wi = 0) :
    exec (.onByte END) s = .next (accept s.dec s) :=
  (exec_onByte_END hm).trans (execDEnd_of_zero h0)

/-- `IDX_W` bits hold `n` (R7). -/
theorem lt_two_pow_idxW (n : Nat) : n < 2 ^ idxW n := by
  unfold idxW
  split_ifs with h0
  · simp [h0]
  · exact Nat.lt_log2_self

/-- Settles O35: `log2 n + 1` is the number of bits of `n`. -/
theorem writeIndexFitsTheSmallestWidth : Obligations.WriteIndexFitsTheSmallestWidth := by
  refine ⟨fun s inv => inv.wi_le.trans_lt (lt_two_pow_idxW _), fun n w hw => ?_⟩
  unfold idxW
  split_ifs with h0
  · exact Nat.zero_le w
  · exact (Nat.log2_lt h0).2 hw

/-- Settles O27. -/
theorem deliveredFrameIsTheBufferBelowTheIndex : Obligations.DeliveredFrameIsTheBufferBelowTheIndex := by
  intro s inv hm hpos
  obtain ⟨f, hf, hlen, hcells⟩ := inv.exists_frame
  have hcap : f.length ≤ s.rxCapacity := hlen ▸ inv.wi_le
  have frameLen : ((emitFrame f s).frameLen.map BitVec.toNat) = some s.dec.wi := by
    have hbits : s.dec.wi < 2 ^ idxW s.rxCapacity := inv.wi_le.trans_lt (lt_two_pow_idxW _)
    simp [State.frameLen, hlen, Nat.mod_eq_of_lt hbits]
  exact ⟨f, _, exec_END_of_frame hm hpos hf, hlen, hlen ▸ hpos, hcap, fun j hj => (hcells j hj).symm, rfl, rfl, rfl,
    frameLen, rfl⟩

/-- Settles O32. -/
theorem deliveredFramesAreNeverEmpty : Obligations.DeliveredFramesAreNeverEmpty := by
  refine ⟨fun s t b inv h => ?_, rfl, fun s ⟨hm, h0⟩ => ⟨accept s.dec s, ?_, rfl, rfl⟩⟩
  · obtain ⟨d, rfl⟩ | ⟨f, hf, hpos, rfl⟩ | ⟨o, -, rfl⟩ := exec_onByte_ends h
    · exact .inl ⟨rfl, rfl⟩
    · obtain ⟨hlen, -⟩ := (s.dec.frame_eq_some f).1 hf
      exact .inr ⟨f, rfl, rfl, hlen ▸ hpos, hlen ▸ inv.wi_le⟩
    · exact .inl ⟨rfl, rfl⟩
  · simp [wire, feed, exec_END_of_zero hm h0]

/-! ### The outcome and the decoder, from `dec` -/

/-- The port's outcome is `dec`'s, and the decoder's state is `dec`'s where the byte is in progress and reset elsewhere
(R90, R100). -/
theorem exec_onByte_of_dec {s t : State} {b : Byte} {o : RxOutcome} {d : Decoder} (h : exec (.onByte b) s = .next t)
    (hdec : dec s.rxCapacity s.dec b = (o, d)) :
    t.rxOutcome = some o ∧ t.outcomes = s.outcomes ++ [o] ∧ t.dec = if o = .inProgress then d else s.dec.reset := by
  rw [exec_onByte_eq_assemble, hdec] at h
  cases o with
  | inProgress => cases h; exact ⟨rfl, rfl, rfl⟩
  | frameComplete =>
    obtain ⟨f, -, rfl⟩ := deliver_next h
    exact ⟨rfl, rfl, rfl⟩
  | overflow => cases h; exact ⟨rfl, rfl, rfl⟩
  | protocolError => cases h; exact ⟨rfl, rfl, rfl⟩

theorem Decoder.reset_of_initial {d : Decoder} (hm : d.mode = .decoding) (h0 : d.wi = 0) : d.reset = d := by
  cases d
  simp_all [Decoder.reset]

/-- Settles O26: each row is a row of `dec`. -/
theorem decoderSummaryTable : Obligations.DecoderSummaryTable := by
  intro s b inv
  obtain ⟨t, ht⟩ := exec_onByte_completes inv.rx_held b
  have row {o d} (hdec : dec s.rxCapacity s.dec b = (o, d)) :
      t.rxOutcome = some o ∧ t.dec = if o = .inProgress then d else s.dec.reset := by
    obtain ⟨hout, -, hd⟩ := exec_onByte_of_dec ht hdec
    exact ⟨hout, hd⟩
  refine ⟨t, ht, ?_, ?_, ?_, ?_, ?_, ?_, ?_, ?_, ?_⟩
  · rintro hm rfl h0
    obtain ⟨hout, hd⟩ := row ((dec_decoding _ hm END).trans (if_neg h0.not_gt))
    exact ⟨hout, hd.trans (Decoder.reset_of_initial hm h0).symm⟩
  · rintro hm rfl hpos
    exact row ((dec_decoding _ hm END).trans (if_pos hpos))
  · rintro hm rfl
    exact row (dec_decoding _ hm ESC)
  · intro hm (hEnd : b ≠ END) (hEsc : b ≠ ESC) hlt
    exact row (by rw [dec_decoding _ hm, if_neg hEnd, if_neg hEsc, put_of_lt b hlt])
  · intro hm (hEnd : b ≠ END) (hEsc : b ≠ ESC) heq
    exact row (by rw [dec_decoding _ hm, if_neg hEnd, if_neg hEsc, put_of_full b heq.ge])
  · rintro hm rfl hlt
    exact row ((dec_escapeHandling _ hm ESC_END).trans (put_of_lt END hlt))
  · rintro hm rfl hlt
    exact row ((dec_escapeHandling _ hm ESC_ESC).trans (put_of_lt ESC hlt))
  · rintro hm (rfl | rfl) heq
    · exact row ((dec_escapeHandling _ hm ESC_END).trans (put_of_full END heq.ge))
    · exact row ((dec_escapeHandling _ hm ESC_ESC).trans (put_of_full ESC heq.ge))
  · intro hm (hEnd : b ≠ ESC_END) (hEsc : b ≠ ESC_ESC)
    exact row (by rw [dec_escapeHandling _ hm, if_neg hEnd, if_neg hEsc]; rfl)

theorem decDEnd_outcome (d : Decoder) : (decDEnd d).1 = if 0 < d.wi then .frameComplete else .inProgress := by
  unfold decDEnd
  split_ifs <;> rfl

theorem put_outcome (n : Nat) (d : Decoder) (v : Byte) :
    (put n d v).1 = if n ≤ d.wi then .overflow else .inProgress := by
  unfold put
  split_ifs <;> rfl

/-- The outcome in Decoding mode. -/
theorem dec_outcome_decoding (n : Nat) {d : Decoder} (h : d.mode = .decoding) (b : Byte) :
    (dec n d b).1 = if b = END then (if 0 < d.wi then .frameComplete else .inProgress)
      else if b = ESC then .inProgress else if n ≤ d.wi then .overflow else .inProgress := by
  rw [dec_decoding n h]
  split_ifs <;> simp [decDEnd_outcome, put_outcome, decDEsc, *]

/-- The outcome in EscapeHandling mode. -/
theorem dec_outcome_escapeHandling (n : Nat) {d : Decoder} (h : d.mode = .escapeHandling) (b : Byte) :
    (dec n d b).1 = if b = ESC_END ∨ b = ESC_ESC then (if n ≤ d.wi then .overflow else .inProgress)
      else .protocolError := by
  rw [dec_escapeHandling n h]
  split_ifs <;> simp_all [put_outcome, decEInvalid]

/-- Settles O29: the outcome is `dec`'s, and `wi = N` is `N ≤ wi` under the invariant. -/
theorem oneOutcomePerByte : Obligations.OneOutcomePerByte := by
  intro s t b inv h
  rcases hdec : dec s.rxCapacity s.dec b with ⟨o, d⟩
  have outcome : (dec s.rxCapacity s.dec b).1 = o := congrArg Prod.fst hdec
  obtain ⟨hout, houts, -⟩ := exec_onByte_of_dec h hdec
  have full : s.dec.wi = s.rxCapacity ↔ s.rxCapacity ≤ s.dec.wi := ⟨Eq.ge, inv.wi_le.antisymm⟩
  refine ⟨o, hout, houts, ?_⟩
  rw [full, ← outcome]
  cases hm : s.dec.mode with
  | decoding =>
    rw [dec_outcome_decoding _ hm]
    split_ifs <;> simp_all
  | escapeHandling =>
    rw [dec_outcome_escapeHandling _ hm]
    split_ifs <;> simp_all <;> tauto

end Sys2Proof.Machine
end

section
/-! Whole steps: what a step can do with the operation it takes, what it leaves unchanged, and the invariant it keeps. -/

namespace Sys2Proof.Machine

/-! ### A step by its next input -/

/-- Settles O7. -/
theorem stepPerformsTheDecodedOperation : Obligations.StepPerformsTheDecodedOperation := by
  rintro s t i rest hp rfl
  exact step_of_op hp

/-- Settles O8. -/
theorem waitingStepKeepsTheState : Obligations.WaitingStepKeepsTheState := fun _ hp => step_of_no_input hp

/-- Settles O9. -/
theorem powerOnGivesTheInitialState : Obligations.PowerOnGivesTheInitialState := fun _ _ hp => step_of_por hp

/-- An operation that goes on, with the word it was decoded from: an ON_BYTE, an ENCODE or a RESET (R61, R72). -/
theorem exec_decodeTransaction_cases {x : Transaction} {s t : State} (h : exec (decodeTransaction x) s = .next t) :
    (∃ b, decodeTransaction x = .onByte b ∧ exec (.onByte b) s = .next t) ∨
    (∃ ig, decodeTransaction x = .encode ig x.args ∧ exec (.encode ig x.args) s = .next t) ∨
    ∃ ig, decodeTransaction x = .reset ig ∧ t = resetPort s := by
  obtain ⟨b, hx⟩ | ⟨ig, hx⟩ | ⟨ig, hx⟩ | ⟨ig, hx⟩ := decodeTransaction_cases x <;> rw [hx] at h
  · exact .inl ⟨b, hx, h⟩
  · exact .inr (.inl ⟨ig, hx, h⟩)
  · exact .inr (.inr ⟨ig, hx, by cases h; rfl⟩)
  · cases h

/-- A step that goes on waits, is a power-on, or performs an operation (R21, R107, R160). -/
theorem step_input_cases {s t : State} (h : step s = .next t) :
    (s.pending = [] ∧ t = lowerFrameValid s) ∨
    (∃ rest, s.pending = .por :: rest ∧ t = powerOn (takeInput rest s)) ∨
    ∃ x rest, s.pending = .op x :: rest ∧ exec (decodeTransaction x) (takeInput rest s) = .next t := by
  match hp : s.pending with
  | [] => exact .inl ⟨rfl, by rw [step_of_no_input hp] at h; cases h; rfl⟩
  | .por :: rest => exact .inr (.inl ⟨rest, rfl, by rw [step_of_por hp] at h; cases h; rfl⟩)
  | .op x :: rest => exact .inr (.inr ⟨x, rest, rfl, by rw [step_of_op hp] at h; exact h⟩)

/-! ### What an operation leaves unchanged -/

/-- An ENCODE touches the send port alone (R121). -/
theorem exec_encode_unchanged {s t : State} {ig : Byte} {a : EncArgs} (h : exec (.encode ig a) s = .next t) :
    t.rxCapacity = s.rxCapacity ∧ t.lenW = s.lenW ∧ t.dec = s.dec ∧ t.rxOutcome = s.rxOutcome ∧ t.frame = s.frame ∧
      t.outcomes = s.outcomes ∧ t.frames = s.frames ∧ t.pending = s.pending ∧ t.pos = s.pos := by
  obtain ⟨-, ⟨-, rfl⟩ | ⟨-, rfl⟩⟩ := exec_encode_cases h
  · simp
  · simp [encoded]

/-- No operation changes a parameter or the host's sequence (R7, R21). -/
theorem exec_decodeTransaction_unchanged {x : Transaction} {s t : State} (h : exec (decodeTransaction x) s = .next t) :
    t.rxCapacity = s.rxCapacity ∧ t.lenW = s.lenW ∧ t.pending = s.pending ∧ t.pos = s.pos := by
  obtain ⟨b, -, hb⟩ | ⟨ig, -, hb⟩ | ⟨ig, -, rfl⟩ := exec_decodeTransaction_cases h
  · obtain ⟨hcap, hlen, -, -, -, -, hpend, hpos⟩ := exec_onByte_unchanged hb
    exact ⟨hcap, hlen, hpend, hpos⟩
  · obtain ⟨hcap, hlen, -, -, -, -, -, hpend, hpos⟩ := exec_encode_unchanged hb
    exact ⟨hcap, hlen, hpend, hpos⟩
  · exact ⟨rfl, rfl, rfl, rfl⟩

/-- Settles O13. -/
theorem stepTakesOneInputAndKeepsTheParameters : Obligations.StepTakesOneInputAndKeepsTheParameters := by
  intro s t h
  obtain ⟨hp, rfl⟩ | ⟨rest, hp, rfl⟩ | ⟨x, rest, hp, hx⟩ := step_input_cases h
  · simp [hp]
  · simp [hp]
  · obtain ⟨hcap, hlen, hpend, hpos⟩ := exec_decodeTransaction_unchanged hx
    simp [hp, hcap, hlen, hpend, hpos]

/-! ### The write index and `RX` over a step -/

/-- But for power-on, a step waits or performs an operation. -/
theorem step_op_of_not_por {s t : State} (h : step s = .next t) (hpor : s.pending.head? ≠ some .por) :
    t = lowerFrameValid s ∨
      ∃ x rest, s.pending = .op x :: rest ∧ exec (decodeTransaction x) (takeInput rest s) = .next t := by
  obtain ⟨-, ht⟩ | ⟨rest, hp, -⟩ | ⟨x, rest, hp, hx⟩ := step_input_cases h
  · exact .inl ht
  · simp [hp] at hpor
  · exact .inr ⟨x, rest, hp, hx⟩

/-- The write index over an operation: it stays or grows by one, or the operation runs `reset()` (R104). -/
theorem exec_decodeTransaction_wi {x : Transaction} {s t : State} (h : exec (decodeTransaction x) s = .next t) :
    (s.dec.wi ≤ t.dec.wi ∧ t.dec.wi ≤ s.dec.wi + 1) ∨ (t.dec = s.dec.reset ∧
      ((∃ ig, decodeTransaction x = .reset ig) ∨ ∃ b, decodeTransaction x = .onByte b ∧
        (t.rxOutcome = some .frameComplete ∨ t.rxOutcome = some .overflow ∨ t.rxOutcome = some .protocolError))) := by
  obtain ⟨b, hx, hb⟩ | ⟨ig, -, hb⟩ | ⟨ig, hx, rfl⟩ := exec_decodeTransaction_cases h
  · obtain hgrow | ⟨hreset, hout⟩ := exec_onByte_wi hb
    · exact .inl hgrow
    · exact .inr ⟨hreset, .inr ⟨b, hx, hout⟩⟩
  · obtain ⟨-, -, hdec, -⟩ := exec_encode_unchanged hb
    rw [hdec]
    exact .inl ⟨le_rfl, Nat.le_succ _⟩
  · exact .inr ⟨rfl, .inl ⟨ig, hx⟩⟩

theorem Decoder.reset_initial (d : Decoder) : d.reset.initial := ⟨rfl, rfl⟩

/-- Settles O33. -/
theorem writeIndexFallsOnlyByReset : Obligations.WriteIndexFallsOnlyByReset := by
  refine ⟨fun d => ⟨rfl, d.reset_initial⟩, fun s t h hpor => ?_⟩
  obtain rfl | ⟨x, rest, -, hx⟩ := step_op_of_not_por h hpor
  · simp
  · obtain ⟨hle, hsucc⟩ | ⟨hreset, -⟩ := exec_decodeTransaction_wi hx
    · exact ⟨hsucc, fun hfall => absurd hfall hle.not_gt⟩
    · exact ⟨by rw [hreset]; exact Nat.zero_le _, fun _ => hreset⟩

/-- Settles O57. -/
theorem writeIndexFallsOnlyWhereResetRuns : Obligations.WriteIndexFallsOnlyWhereResetRuns := by
  refine ⟨fun d => ⟨rfl, d.reset_initial⟩, fun s t h hpor hfall => ?_⟩
  obtain rfl | ⟨x, rest, hp, hx⟩ := step_op_of_not_por h hpor
  · exact absurd hfall (lt_irrefl _)
  · obtain ⟨hle, -⟩ | ⟨-, hop⟩ := exec_decodeTransaction_wi hx
    · exact absurd hfall hle.not_gt
    · exact ⟨x, rest, hp, hop⟩

/-- Settles O34: only an ON_BYTE that stores a byte writes `RX`. -/
theorem rxIsWrittenOnlyAtTheWriteIndex : Obligations.RxIsWrittenOnlyAtTheWriteIndex := by
  intro s t h hpor
  have rx : t.dec.rx = s.dec.rx ∨ ∃ v, s.dec.wi < s.rxCapacity ∧ t.dec.wi = s.dec.wi + 1 ∧
      t.dec.rx = s.dec.rx.write s.dec.wi v := by
    obtain rfl | ⟨x, rest, -, hx⟩ := step_op_of_not_por h hpor
    · exact .inl rfl
    · obtain ⟨b, -, hb⟩ | ⟨ig, -, hb⟩ | ⟨ig, -, rfl⟩ := exec_decodeTransaction_cases hx
      · exact exec_onByte_rx (s := takeInput rest s) hb
      · obtain ⟨-, -, hdec, -⟩ := exec_encode_unchanged hb
        exact .inl (congrArg Decoder.rx hdec)
      · exact .inl rfl
  obtain hrx | ⟨v, hlt, hwi, hrx⟩ := rx
  · rw [hrx]
    exact ⟨fun _ _ => rfl, fun hne => absurd rfl hne⟩
  · rw [hrx]
    exact ⟨fun i hi => Memory.read_write_other _ v hi, fun _ => ⟨hlt, hwi⟩⟩

/-! ### `frame_valid` over a step -/

theorem frameValid_eq_one_iff (s : State) : s.frameValid = 1#1 ↔ ∃ f, s.frame = some f := by
  cases h : s.frame <;> simp [State.frameValid, h]

theorem decodeTransaction_onByte_op {x : Transaction} {b : Byte} (h : decodeTransaction x = .onByte b) :
    opField x.cmd = 0b00#2 := by
  by_contra hop
  simp only [decodeTransaction, if_neg hop] at h
  split_ifs at h

/-- An ON_BYTE's frame signals: a frame exactly with `FrameComplete`, and it is `RX[0:wi)` (R70, R102). -/
theorem exec_onByte_frame_iff {s t : State} {b : Byte} (h : exec (.onByte b) s = .next t) :
    ((∃ f, t.frame = some f) ↔ t.rxOutcome = some .frameComplete ∧ t.outcomes = s.outcomes ++ [.frameComplete]) ∧
      ∀ f, t.frame = some f → s.dec.frame = some f := by
  obtain ⟨d, rfl⟩ | ⟨f, hf, -, rfl⟩ | ⟨o, rfl | rfl, rfl⟩ := exec_onByte_ends h
  · simp
  · simp [hf]
  · simp
  · simp

/-- An operation other than ON_BYTE delivers no frame. -/
theorem exec_decodeTransaction_no_frame {x : Transaction} {rest : List HostInput} {s t : State}
    (h : exec (decodeTransaction x) (takeInput rest s) = .next t) (hop : opField x.cmd ≠ 0b00#2) : t.frame = none := by
  obtain ⟨b, hx, -⟩ | ⟨ig, -, hb⟩ | ⟨ig, -, rfl⟩ := exec_decodeTransaction_cases h
  · exact absurd (decodeTransaction_onByte_op hx) hop
  · obtain ⟨-, -, -, -, hframe, -⟩ := exec_encode_unchanged hb
    exact hframe
  · rfl

/-- Settles O56. -/
theorem frameValidExactlyOnACompletingByte : Obligations.FrameValidExactlyOnACompletingByte := by
  intro s t h
  rw [frameValid_eq_one_iff]
  obtain ⟨hp, rfl⟩ | ⟨rest, hp, rfl⟩ | ⟨x, rest, hp, hx⟩ := step_input_cases h
  · simp [hp]
  · simp [hp]
  · by_cases hop : opField x.cmd = 0b00#2
    · obtain ⟨b, hb⟩ : ∃ b, decodeTransaction x = .onByte b := ⟨byteField x.cmd, if_pos hop⟩
      rw [hb] at hx
      obtain ⟨hiff, hframe⟩ := exec_onByte_frame_iff hx
      refine ⟨by simpa [hp, hop] using hiff, fun f hf => ?_⟩
      obtain ⟨hlen, hcells⟩ := (s.dec.frame_eq_some f).1 (hframe f hf)
      exact ⟨hlen, fun j hj => (hcells j hj).symm⟩
    · simp [exec_decodeTransaction_no_frame hx hop, hp, hop]

end Sys2Proof.Machine
end

section
/-! The invariant: what `BlockInv` says of the decoder, and that every update keeps it. -/

namespace Sys2Proof.Machine

/-- What `BlockInv` says of the decoder alone: `wi ≤ N`, `RX` canonical and inside its indices, every cell below `wi`
written (R26(a), R26(b), R40). -/
structure RxInv (n : Nat) (d : Decoder) : Prop where
  wi_le : d.wi ≤ n
  wf : Memory.wf d.rx = true
  inside : ∀ i, n ≤ i → d.rx.read i = none
  held : ∀ i, i < d.wi → (d.rx.read i).isSome = true

theorem BlockInv.rxInv {s : State} (inv : BlockInv s) : RxInv s.rxCapacity s.dec :=
  ⟨inv.wi_le, inv.rx_wf, inv.rx_inside, inv.rx_held⟩

theorem RxInv.powerOn (n : Nat) : RxInv n Decoder.powerOn :=
  ⟨Nat.zero_le n, rfl, fun _ _ => rfl, fun _ hi => absurd hi (Nat.not_lt_zero _)⟩

theorem RxInv.reset {n : Nat} {d : Decoder} (h : RxInv n d) : RxInv n d.reset :=
  ⟨Nat.zero_le n, h.wf, h.inside, fun _ hi => absurd hi (Nat.not_lt_zero _)⟩

/-- The mode is no part of it. -/
theorem RxInv.withMode {n : Nat} {d : Decoder} (h : RxInv n d) (m : Mode) : RxInv n { d with mode := m } :=
  ⟨h.wi_le, h.wf, h.inside, h.held⟩

/-- The write step keeps it: the cell it writes is the one that `wi + 1` adds to the frame (R86). -/
theorem RxInv.stored {n : Nat} {d : Decoder} (h : RxInv n d) (hlt : d.wi < n) (v : Byte) :
    RxInv n { mode := .decoding, wi := d.wi + 1, rx := d.rx.write d.wi v } where
  wi_le := hlt
  wf := Memory.wf_write d.wi v h.wf
  inside := fun i hi => by
    rw [Memory.read_write_other _ v (by omega)]
    exact h.inside i hi
  held := fun i (hi : i < d.wi + 1) => by
    rw [Memory.read_write]
    split_ifs with heq
    · rfl
    · exact h.held i (by omega)

/-! ### The updates -/

/-- Recorded events stay below the number of outcomes when one more outcome is recorded. -/
theorem BlockInv.events_append {s : State} (inv : BlockInv s) (o : RxOutcome) :
    ∀ e ∈ s.frames, e.1 < (s.outcomes ++ [o]).length ∧ 1 ≤ e.2.length ∧ e.2.length ≤ s.rxCapacity := by
  intro e he
  obtain ⟨hidx, hlen⟩ := inv.events e he
  exact ⟨by simp; omega, hlen⟩

theorem BlockInv.accept {s : State} (inv : BlockInv s) {d : Decoder} (h : RxInv s.rxCapacity d) :
    BlockInv (accept d s) where
  wi_le := h.wi_le
  rx_wf := h.wf
  rx_inside := h.inside
  rx_held := h.held
  tx_wf := inv.tx_wf
  enc_idle := inv.enc_idle
  between := fun o ho hne => absurd (by simpa using ho.symm) hne
  valid := by simp
  events := inv.events_append .inProgress
  lenW_pos := inv.lenW_pos

/-- In each update that resets the decoder `wi = 0`, so no cell has to be held, and the decoder is initial as `between` asks. -/
theorem BlockInv.raiseError {s : State} (inv : BlockInv s) (o : RxOutcome) : BlockInv (raiseError o s) :=
  { inv with
    wi_le := Nat.zero_le _
    rx_held := inv.rxInv.reset.held
    between := fun _ _ _ => ⟨rfl, rfl⟩
    valid := by simp
    events := inv.events_append o }

theorem BlockInv.emitFrame {s : State} (inv : BlockInv s) {f : List Byte} (hpos : 1 ≤ f.length)
    (hcap : f.length ≤ s.rxCapacity) : BlockInv (emitFrame f s) :=
  { inv with
    wi_le := Nat.zero_le _
    rx_held := inv.rxInv.reset.held
    between := fun _ _ _ => ⟨rfl, rfl⟩
    valid := fun _ => rfl
    events := fun e he => by
      rw [emitFrame_frames, List.mem_append, List.mem_singleton] at he
      obtain he | rfl := he
      · exact inv.events_append .frameComplete e he
      · exact ⟨by simp, hpos, hcap⟩ }

theorem BlockInv.resetPort {s : State} (inv : BlockInv s) : BlockInv (resetPort s) :=
  { inv with
    wi_le := Nat.zero_le _
    rx_held := inv.rxInv.reset.held
    between := fun _ _ _ => ⟨rfl, rfl⟩
    valid := by simp }

theorem BlockInv.powerOn {s : State} (inv : BlockInv s) : BlockInv (powerOn s) :=
  { inv with
    wi_le := Nat.zero_le _
    rx_wf := rfl
    rx_inside := fun _ _ => rfl
    rx_held := (RxInv.powerOn s.rxCapacity).held
    enc_idle := rfl
    between := fun _ _ _ => ⟨rfl, rfl⟩
    valid := by simp }

theorem BlockInv.lowerFrameValid {s : State} (inv : BlockInv s) : BlockInv (lowerFrameValid s) :=
  { inv with valid := by simp }

theorem BlockInv.takeInput {s : State} (inv : BlockInv s) (rest : List HostInput) : BlockInv (takeInput rest s) :=
  { inv with valid := by simp }

theorem BlockInv.rejectEncode {s : State} (inv : BlockInv s) : BlockInv (rejectEncode s) := { inv with }

theorem BlockInv.encoded {s : State} (inv : BlockInv s) (pay : List Byte) : BlockInv (encoded pay s) :=
  { inv with
    tx_wf := Memory.wf_writeAll (wire pay) s.tx 0 inv.tx_wf
    enc_idle := rfl }

/-! ### Operations and steps -/

theorem BlockInv.onByte {s t : State} {b : Byte} (inv : BlockInv s) (h : exec (.onByte b) s = .next t) :
    BlockInv t := by
  obtain ⟨-, -, -, rfl⟩ | ⟨-, -, hpos, f, hf, rfl⟩ | ⟨-, -, rfl⟩ | ⟨v, -, hlt, rfl⟩ | ⟨v, -, -, rfl⟩ | ⟨-, -, rfl⟩ :=
    exec_onByte_cases h
  · exact inv.accept inv.rxInv
  · obtain ⟨hlen, -⟩ := (s.dec.frame_eq_some f).1 hf
    exact inv.emitFrame (hlen ▸ hpos) (hlen ▸ inv.wi_le)
  · exact inv.accept (inv.rxInv.withMode _)
  · exact inv.accept (inv.rxInv.stored hlt v)
  · exact inv.raiseError _
  · exact inv.raiseError _

theorem BlockInv.encode {s t : State} {ig : Byte} {a : EncArgs} (inv : BlockInv s)
    (h : exec (.encode ig a) s = .next t) : BlockInv t := by
  obtain ⟨-, ⟨-, rfl⟩ | ⟨-, rfl⟩⟩ := exec_encode_cases h
  · exact inv.rejectEncode
  · exact inv.encoded a.pay

/-- Settles O11: every input's updates keep the invariant. -/
theorem stepKeepsTheInvariant : Obligations.StepKeepsTheInvariant := by
  intro s t inv h
  obtain ⟨-, rfl⟩ | ⟨rest, -, rfl⟩ | ⟨x, rest, -, hx⟩ := step_input_cases h
  · exact inv.lowerFrameValid
  · exact (inv.takeInput rest).powerOn
  · have taken := inv.takeInput rest
    obtain ⟨b, -, hb⟩ | ⟨ig, -, hb⟩ | ⟨ig, -, rfl⟩ := exec_decodeTransaction_cases hx
    · exact taken.onByte hb
    · exact taken.encode hb
    · exact taken.resetPort

/-- Settles O12: nothing is recorded, `RX` and `TX` are empty, and `LEN_W` is a successor. -/
theorem resetMeetsTheInvariant : Obligations.ResetMeetsTheInvariant where
  wi_le := Nat.zero_le _
  rx_wf := rfl
  rx_inside := fun _ _ => rfl
  rx_held := (RxInv.powerOn Config.rxCapacity).held
  tx_wf := rfl
  enc_idle := rfl
  between := fun _ h => by cases h
  valid := fun h => by cases h
  events := fun _ h => by cases h
  lenW_pos := Nat.succ_pos _

end Sys2Proof.Machine
end

section
/-! ENCODE: the bytes it leaves in `TX`, the wire form's length and its escaping, and the rows of the encode table. -/

namespace Sys2Proof.Machine

/-! ### An accepted ENCODE -/

@[simp] theorem encoded_encResult (pay : List Byte) (s : State) :
    (encoded pay s).encResult = some (.ok (wire pay).length) := rfl

/-- `TX` holds the wire form from index 0 and is as before beyond it (R122, D26). -/
theorem encoded_tx_read (pay : List Byte) (s : State) (k : Nat) :
    (encoded pay s).tx.read k = if k < (wire pay).length then (wire pay)[k]? else s.tx.read k := by
  simp [encoded, Memory.read_writeAll]

theorem encoded_tx_read_of_lt {pay : List Byte} (s : State) {k : Nat} (h : k < (wire pay).length) :
    (encoded pay s).tx.read k = (wire pay)[k]? := (encoded_tx_read pay s k).trans (if_pos h)

theorem encoded_tx_read_of_le {pay : List Byte} (s : State) {k : Nat} (h : (wire pay).length ≤ k) :
    (encoded pay s).tx.read k = s.tx.read k := (encoded_tx_read pay s k).trans (if_neg h.not_gt)

theorem exec_encode_accepted {a : EncArgs} (ho : a.overlap = false) (hfit : 2 * a.pay.length + 2 ≤ a.outCapacity)
    (ig : Byte) (s : State) : exec (.encode ig a) s = .next (encoded a.pay s) := by
  rw [execEncode_eq, if_neg (by simp [ho]), if_neg (by omega)]

theorem exec_encode_rejected {a : EncArgs} (ho : a.overlap = false) (hlarge : 2 * a.pay.length + 2 > a.outCapacity)
    (ig : Byte) (s : State) : exec (.encode ig a) s = .next (rejectEncode s) := by
  rw [execEncode_eq, if_neg (by simp [ho]), if_pos hlarge]

/-! ### The length of the wire form (R127) -/

theorem escaped_length (p : Byte) :
    (escaped p).length = 1 + (if p = END then 1 else 0) + (if p = ESC then 1 else 0) := by
  rw [escaped_eq]
  by_cases hEnd : p = END
  · subst hEnd
    rfl
  by_cases hEsc : p = ESC
  · subst hEsc
    rfl
  simp [hEnd, hEsc]

theorem wire_cons_length (p : Byte) (ps : List Byte) :
    (wire (p :: ps)).length = (wire ps).length + (escaped p).length := by
  simp only [wire, List.length_cons, List.flatMap_cons, List.length_append]
  omega

/-- One byte for each payload byte and one more for each that is escaped. -/
theorem wire_length (pay : List Byte) :
    (wire pay).length = 1 + pay.length + pay.count END + pay.count ESC := by
  induction pay with
  | nil => rfl
  | cons p ps ih =>
    simp only [wire_cons_length, ih, escaped_length, List.length_cons, List.count_cons, beq_iff_eq]
    omega

theorem escaped_length_le (p : Byte) : (escaped p).length ≤ 2 := by
  rw [escaped_eq]
  split_ifs <;> simp

theorem wire_length_le (pay : List Byte) : (wire pay).length ≤ 2 * pay.length + 1 := by
  induction pay with
  | nil => exact le_rfl
  | cons p ps ih =>
    have hp := escaped_length_le p
    rw [wire_cons_length, List.length_cons]
    omega

/-- Settles O38. -/
theorem encodeResultAndBytes : Obligations.EncodeResultAndBytes := by
  intro s ig a ho
  by_cases hfit : 2 * a.pay.length + 2 ≤ a.outCapacity
  · refine ⟨_, exec_encode_accepted ho hfit ig s, fun hlarge => absurd hfit hlarge.not_ge, fun _ => ?_⟩
    have hwire : wire a.pay = 0xC0#8 :: a.pay.flatMap fun p =>
        if p = 0xC0#8 then [0xDB#8, 0xDC#8] else if p = 0xDB#8 then [0xDB#8, 0xDD#8] else [p] :=
      congrArg (fun out => END :: a.pay.flatMap out) (funext escaped_eq)
    rw [← hwire]
    exact ⟨rfl, rfl, fun k hk => encoded_tx_read_of_lt s hk, fun k hk => encoded_tx_read_of_le s hk⟩
  · exact ⟨_, exec_encode_rejected ho (by omega) ig s, fun _ => ⟨rfl, rfl, fun _ => rfl⟩, fun h => absurd h hfit⟩

/-- Settles O39. -/
theorem encodeWritesTheWireForm : Obligations.EncodeWritesTheWireForm := fun s ig a ho =>
  ⟨fun hfit => ⟨_, exec_encode_accepted ho hfit ig s, encoded_tx_read a.pay s⟩,
    fun hlarge => exec_encode_rejected ho hlarge ig s⟩

/-- Settles O40. -/
theorem encodeIsRejectedExactlyWhenTooLarge : Obligations.EncodeIsRejectedExactlyWhenTooLarge := by
  intro s ig a ho
  by_cases hfit : 2 * a.pay.length + 2 ≤ a.outCapacity
  · exact ⟨_, exec_encode_accepted ho hfit ig s, by simpa using hfit, by simp⟩
  · exact ⟨_, exec_encode_rejected ho (by omega) ig s, by simpa using hfit, fun _ _ => rfl⟩

/-- Settles O41. -/
theorem overlappingEncodeIsRefused : Obligations.OverlappingEncodeIsRefused :=
  fun s ig _ ho => exec_encode_overlap ho ig s

/-- Settles O42. -/
theorem encodedLengthAndItsBounds : Obligations.EncodedLengthAndItsBounds := by
  intro s ig a ho hfit
  have hlen := wire_length a.pay
  have hle := wire_length_le a.pay
  refine ⟨_, _, exec_encode_accepted ho hfit ig s, rfl, hlen, by omega, by omega, hle, by omega, fun hwidth => ?_⟩
  have hbits : (wire a.pay).length < 2 ^ s.lenW := by omega
  simp [State.encLenSignal, EncResult.encLen, encoded, Nat.mod_eq_of_lt hbits]

/-- Settles O44. -/
theorem encodeIsPure : Obligations.EncodeIsPure := by
  intro s s' t ig ig' a h
  obtain ⟨-, -, hdec, hout, hframe, houts, hframes, -, -⟩ := exec_encode_unchanged h
  refine ⟨?_, hdec, hout, hframe, houts, hframes⟩
  obtain ⟨ho, ⟨hlarge, rfl⟩ | ⟨hfit, rfl⟩⟩ := exec_encode_cases h
  · exact ⟨_, _, [], exec_encode_rejected ho hlarge ig' s', rfl, rfl, by simp, fun _ _ => ⟨rfl, rfl⟩⟩
  · exact ⟨_, _, wire a.pay, exec_encode_accepted ho hfit ig' s', rfl, rfl,
      fun k hk => ⟨encoded_tx_read_of_lt s hk, encoded_tx_read_of_lt s' hk⟩,
      fun k hk => ⟨encoded_tx_read_of_le s hk, encoded_tx_read_of_le s' hk⟩⟩

/-- Settles O54. -/
theorem encodeResultCodes : Obligations.EncodeResultCodes := by
  refine ⟨fun n => ⟨rfl, rfl⟩, rfl, rfl, fun s t ig a h => ?_⟩
  obtain ⟨-, ⟨-, rfl⟩ | ⟨-, rfl⟩⟩ := exec_encode_cases h
  · exact .inr ⟨rfl, rfl⟩
  · exact .inl ⟨rfl, wire a.pay, rfl⟩

/-- Settles O48: of the operations only an accepted ENCODE writes `TX`, and its output is shorter than `2*L + 2`. -/
theorem txIsWrittenOnlyByAnAcceptedEncode : Obligations.TxIsWrittenOnlyByAnAcceptedEncode := by
  intro s t h
  obtain ⟨-, rfl⟩ | ⟨rest, -, rfl⟩ | ⟨x, rest, hp, hx⟩ := step_input_cases h
  · exact .inl fun _ => rfl
  · exact .inl fun _ => rfl
  · obtain ⟨b, -, hb⟩ | ⟨ig, hop, hb⟩ | ⟨ig, -, rfl⟩ := exec_decodeTransaction_cases hx
    · obtain ⟨-, -, htx, -⟩ := exec_onByte_unchanged hb
      exact .inl fun k => congrArg (Memory.read · k) htx
    · obtain ⟨hcode, -⟩ := decodeTransaction_encode_op hop
      obtain ⟨-, ⟨-, rfl⟩ | ⟨hfit, rfl⟩⟩ := exec_encode_cases hb
      · exact .inl fun _ => rfl
      · have hle := wire_length_le x.args.pay
        exact .inr ⟨x, rest, _, hp, hcode, rfl, by omega, fun k hk => encoded_tx_read_of_le (takeInput rest s) hk⟩
    · exact .inl fun _ => rfl

/-! ### Escaping (R130) -/

/-- The output of a payload has no delimiter. -/
theorem END_not_mem_flatMap_escaped (pay : List Byte) : END ∉ pay.flatMap escaped := by
  intro hmem
  obtain ⟨p, -, hp⟩ := List.mem_flatMap.1 hmem
  rw [escaped_eq] at hp
  split_ifs at hp with hEnd hEsc
  · exact absurd hp (by decide)
  · exact absurd hp (by decide)
  · exact hEnd (List.mem_singleton.1 hp).symm

/-- `END` leads the wire form and stands nowhere else in it. -/
theorem wire_END {pay : List Byte} {k : Nat} (h : (wire pay)[k]? = some END) : k = 0 := by
  cases k with
  | zero => rfl
  | succ k => exact absurd (List.mem_of_getElem? (l := pay.flatMap escaped) h) (END_not_mem_flatMap_escaped pay)

/-- Every `ESC` in the output of a payload is followed by an escape code. -/
theorem flatMap_escaped_ESC (pay : List Byte) : ∀ k, (pay.flatMap escaped)[k]? = some ESC →
    (pay.flatMap escaped)[k + 1]? = some ESC_END ∨ (pay.flatMap escaped)[k + 1]? = some ESC_ESC := by
  induction pay with
  | nil => intro k h; cases h
  | cons p ps ih =>
    intro k h
    rw [List.flatMap_cons, escaped_eq] at h ⊢
    split_ifs at h ⊢ with hEnd hEsc
    · match k with
      | 0 => exact .inl rfl
      | 1 => exact absurd (Option.some.inj h) (by decide)
      | k + 2 => exact ih k h
    · match k with
      | 0 => exact .inr rfl
      | 1 => exact absurd (Option.some.inj h) (by decide)
      | k + 2 => exact ih k h
    · match k with
      | 0 => exact absurd (Option.some.inj h) hEsc
      | k + 1 => exact ih k h

/-- The same in the wire form. -/
theorem wire_ESC {pay : List Byte} {k : Nat} (h : (wire pay)[k]? = some ESC) :
    (wire pay)[k + 1]? = some ESC_END ∨ (wire pay)[k + 1]? = some ESC_ESC := by
  cases k with
  | zero => exact absurd (Option.some.inj h) (by decide)
  | succ k => exact flatMap_escaped_ESC pay k h

/-- The wire form at a payload byte: that of the bytes before it, the byte's output, and the output of the bytes after. -/
theorem wire_eq_at {pay : List Byte} {i : Nat} {p : Byte} (h : pay[i]? = some p) :
    wire pay = wire (pay.take i) ++ (escaped p ++ (pay.drop (i + 1)).flatMap escaped) := by
  obtain ⟨hi, rfl⟩ := List.getElem?_eq_some_iff.1 h
  have hsplit : pay.take i ++ pay[i] :: pay.drop (i + 1) = pay := by
    rw [← List.drop_eq_getElem_cons hi, List.take_append_drop]
  calc wire pay
      = wire (pay.take i ++ pay[i] :: pay.drop (i + 1)) := by rw [hsplit]
    _ = wire (pay.take i) ++ (escaped pay[i] ++ (pay.drop (i + 1)).flatMap escaped) := by
        rw [wire, List.flatMap_append, List.flatMap_cons, wire, List.cons_append]

/-- The output of a payload byte stands after the wire form of the bytes before it. -/
theorem wire_getElem?_escaped {pay : List Byte} {i : Nat} {p : Byte} (h : pay[i]? = some p) {j : Nat}
    (hj : j < (escaped p).length) : (wire pay)[(wire (pay.take i)).length + j]? = (escaped p)[j]? := by
  rw [wire_eq_at h, List.getElem?_append_right (Nat.le_add_right _ _), Nat.add_sub_cancel_left,
    List.getElem?_append_left hj]

/-- Where the wire form holds a value, `TX` holds it after an accepted ENCODE. -/
theorem encoded_tx_read_of_wire {pay : List Byte} (s : State) {k : Nat} {v : Byte} (h : (wire pay)[k]? = some v) :
    (encoded pay s).tx.read k = some v := by
  obtain ⟨hk, -⟩ := List.getElem?_eq_some_iff.1 h
  rw [encoded_tx_read_of_lt s hk, h]

/-- Settles O43: `TX` holds the wire form, whose escaping the lemmas above state. -/
theorem escapingIsCorrect : Obligations.EscapingIsCorrect := by
  intro s t ig a n h hres
  obtain ⟨-, ⟨-, rfl⟩ | ⟨-, rfl⟩⟩ := exec_encode_cases h
  · cases hres
  obtain rfl : (wire a.pay).length = n := by simpa using hres
  refine ⟨encoded_tx_read_of_wire s rfl, fun k hk hEND => ?_, fun k hk hESC => ?_, fun i hi => ?_, fun i hi => ?_⟩
  · rw [encoded_tx_read_of_lt s hk] at hEND
    exact wire_END hEND
  · rw [encoded_tx_read_of_lt s hk] at hESC
    obtain hcode | hcode := wire_ESC hESC
    · exact ⟨(List.getElem?_eq_some_iff.1 hcode).1, .inl (encoded_tx_read_of_wire s hcode)⟩
    · exact ⟨(List.getElem?_eq_some_iff.1 hcode).1, .inr (encoded_tx_read_of_wire s hcode)⟩
  · exact ⟨encoded_tx_read_of_wire s (wire_getElem?_escaped hi (j := 0) (by decide)),
      encoded_tx_read_of_wire s (wire_getElem?_escaped hi (j := 1) (by decide))⟩
  · exact ⟨encoded_tx_read_of_wire s (wire_getElem?_escaped hi (j := 0) (by decide)),
      encoded_tx_read_of_wire s (wire_getElem?_escaped hi (j := 1) (by decide))⟩

/-! ### The rows of the encode table (R124 to R126) -/

theorem exec_xEnd_eq (s : State) : exec .xEnd s = .next (emitBytes xEndBytes s) := rfl

theorem exec_xEsc_eq (s : State) : exec .xEsc s = .next (emitBytes xEscBytes s) := rfl

theorem exec_xData_eq (p : Byte) (s : State) : exec (.xData p) s = .next (emitBytes (xDataBytes p) s) := rfl

/-- The wire form of `k` delimiters: each becomes its pair. -/
theorem wire_replicate_END (k : Nat) :
    wire (List.replicate k END) = END :: (List.replicate k [ESC, ESC_END]).flatten := by
  have hpair : escaped END = [ESC, ESC_END] := escaped_eq END
  rw [wire, List.flatMap_replicate, hpair]

theorem wire_replicate_END_length (k : Nat) : (wire (List.replicate k END)).length = 2 * k + 1 := by
  rw [wire_replicate_END]
  simp [Nat.mul_comm]

/-- Settles O45. -/
theorem rowXEndEmitsAnEscapedEND : Obligations.RowXEndEmitsAnEscapedEND := by
  refine ⟨rfl, fun s => ?_, fun k => ⟨wire_replicate_END k, wire_replicate_END_length k⟩⟩
  rw [exec_xEnd_eq, emitBytes_eq]
  rfl

/-- Settles O46. -/
theorem rowXEscEmitsAnEscapedESC : Obligations.RowXEscEmitsAnEscapedESC := by
  refine ⟨rfl, fun s => ?_⟩
  rw [exec_xEsc_eq, emitBytes_eq]
  rfl

/-- Settles O47: the byte is none of the exact rows' in either table. -/
theorem rowXDataEmitsTheByteUnchanged : Obligations.RowXDataEmitsTheByteUnchanged := by
  intro p (hEnd : p ≠ END) (hEsc : p ≠ ESC)
  refine ⟨?_, ?_, fun s => ?_⟩
  · rw [decodeEncByte_eq, if_neg hEnd, if_neg hEsc]
  · rw [decodeKey_decoding, if_neg hEnd, if_neg hEsc]
  · rw [exec_xData_eq, emitBytes_eq]
    rfl

end Sys2Proof.Machine
end

section
/-! The two ports: an update that does not touch the receive port commutes with its operations (R50), and a sequence of steps
performs the ON_BYTEs the host has presented (R48, R71). -/

namespace Sys2Proof.Machine

/-! ### Updates that leave the receive port alone -/

/-- An outcome with an update applied to its next state. -/
def mapNext (f : State → State) : Host.Outcome State Fault Refusal → Host.Outcome State Fault Refusal
  | .next s => .next (f s)
  | .fault r => .fault r
  | .refused r => .refused r

/-- `f` neither reads nor changes what the receive port's operations read, and commutes with each of their updates. -/
structure OffReceivePort (f : State → State) : Prop where
  dec : ∀ s, (f s).dec = s.dec
  rxCapacity : ∀ s, (f s).rxCapacity = s.rxCapacity
  accept : ∀ d s, Machine.accept d (f s) = f (Machine.accept d s)
  raiseError : ∀ o s, Machine.raiseError o (f s) = f (Machine.raiseError o s)
  emitFrame : ∀ bs s, Machine.emitFrame bs (f s) = f (Machine.emitFrame bs s)
  resetPort : ∀ s, Machine.resetPort (f s) = f (Machine.resetPort s)

theorem OffReceivePort.exec_onByte {f : State → State} (hf : OffReceivePort f) (b : Byte) (s : State) :
    exec (.onByte b) (f s) = mapNext f (exec (.onByte b) s) := by
  rw [exec_onByte_eq_assemble, exec_onByte_eq_assemble, hf.dec, hf.rxCapacity]
  obtain ⟨o, d⟩ := Machine.dec s.rxCapacity s.dec b
  cases o with
  | inProgress => exact congrArg _ (hf.accept d s)
  | frameComplete =>
    simp only [assemble, deliver, hf.dec]
    cases s.dec.frame with
    | none => rfl
    | some bs => exact congrArg _ (hf.emitFrame bs s)
  | overflow => exact congrArg _ (hf.raiseError .overflow s)
  | protocolError => exact congrArg _ (hf.raiseError .protocolError s)

theorem OffReceivePort.exec_reset {f : State → State} (hf : OffReceivePort f) (ig : Byte) (s : State) :
    exec (.reset ig) (f s) = mapNext f (exec (.reset ig) s) := by
  rw [exec_reset_eq, exec_reset_eq, hf.resetPort]
  rfl

/-! ### Both ports (R50) -/

theorem offReceivePort_rejectEncode : OffReceivePort rejectEncode where
  dec _ := rfl
  rxCapacity _ := rfl
  accept _ _ := rfl
  raiseError _ _ := rfl
  emitFrame _ _ := rfl
  resetPort _ := rfl

theorem offReceivePort_encoded (pay : List Byte) : OffReceivePort (encoded pay) where
  dec _ := rfl
  rxCapacity _ := rfl
  accept _ _ := rfl
  raiseError _ _ := rfl
  emitFrame _ _ := rfl
  resetPort _ := rfl

/-- Without overlap an ENCODE is one update, the same in every state, that leaves the receive port alone. -/
theorem exec_encode_offReceivePort {a : EncArgs} (ho : a.overlap = false) (ig : Byte) :
    ∃ f, OffReceivePort f ∧ ∀ s, exec (.encode ig a) s = .next (f s) := by
  by_cases hfit : 2 * a.pay.length + 2 ≤ a.outCapacity
  · exact ⟨_, offReceivePort_encoded a.pay, exec_encode_accepted ho hfit ig⟩
  · exact ⟨_, offReceivePort_rejectEncode, exec_encode_rejected ho (Nat.not_le.1 hfit) ig⟩

/-- Settles O49: an ENCODE that is not refused is an update that the receive port's operations commute with. -/
theorem portsAreIndependent : Obligations.PortsAreIndependent := by
  intro s u i ig a hi
  cases ho : a.overlap with
  | true => simp [exec_encode_overlap ho]
  | false =>
    obtain ⟨f, hf, hexec⟩ := exec_encode_offReceivePort ho ig
    have hcomm : exec i (f s) = mapNext f (exec i s) := by
      obtain ⟨b, rfl⟩ | ⟨x, rfl⟩ := hi
      · exact hf.exec_onByte b s
      · exact hf.exec_reset x s
    simp only [hexec]
    constructor
    · rintro ⟨t, ht, hu⟩
      exact ⟨f s, rfl, by rw [hcomm, ht]; exact hu⟩
    · rintro ⟨v, hv, hu⟩
      obtain rfl : f s = v := by simpa using hv
      rw [hcomm] at hu
      match hx : exec i s with
      | .next t => exact ⟨t, rfl, by rw [hx] at hu; exact hu⟩
      | .fault r => rw [hx] at hu; cases hu
      | .refused r => rw [hx] at hu; cases hu

/-! ### Steps and fed bytes -/

/-- The host's sequence and position set to given values. -/
def withSequence (rest : List HostInput) (n : Nat) (s : State) : State := { s with pending := rest, pos := n }

theorem offReceivePort_withSequence (rest : List HostInput) (n : Nat) : OffReceivePort (withSequence rest n) where
  dec _ := rfl
  rxCapacity _ := rfl
  accept _ _ := rfl
  raiseError _ _ := rfl
  emitFrame _ _ := rfl
  resetPort _ := rfl

/-- An ON_BYTE does not read the host's sequence, nor the frame signals that taking an input lowers. -/
theorem exec_onByte_withSequence (b : Byte) (taken rest : List HostInput) (n : Nat) (s : State) :
    exec (.onByte b) (withSequence rest n s) =
      mapNext (withSequence rest n) (exec (.onByte b) (takeInput taken s)) := by
  rw [← (offReceivePort_withSequence rest n).exec_onByte, ← exec_onByte_lowerFrameValid]
  rfl

theorem step_of_byteInput {s : State} {b : Byte} {bs : List Byte} {rest : List HostInput}
    (h : s.pending = byteInputs (b :: bs) ++ rest) :
    step s = exec (.onByte b) (takeInput (byteInputs bs ++ rest) s) := by
  rw [step_of_op (rest := byteInputs bs ++ rest) h, decodeTransaction_onByte]

theorem core_run_of_next {s t : State} (h : step s = .next t) (k : Nat) :
    Host.Core.run Sys2Proof.core (k + 1) s = Host.Core.run Sys2Proof.core k t := by
  have hstep : Sys2Proof.core.step s = .next t := h
  simp only [Host.Core.run, hstep]

theorem core_run_of_refused {s : State} {r : Refusal} (h : step s = .refused r) (k : Nat) :
    Host.Core.run Sys2Proof.core (k + 1) s = .refused r := by
  have hstep : Sys2Proof.core.step s = .refused r := h
  simp only [Host.Core.run, hstep]

theorem feed_cons_of_next {b : Byte} {s t : State} (h : exec (.onByte b) s = .next t) (bs : List Byte) :
    feed (b :: bs) s = feed bs t := by
  rw [feed, h]

theorem feed_cons_of_refused {b : Byte} {s : State} {r : Refusal} (h : exec (.onByte b) s = .refused r)
    (bs : List Byte) : feed (b :: bs) s = .refused r := by
  rw [feed, h]

/-- Settles O37, by induction on the bytes. -/
theorem stepsPerformTheFedBytes : Obligations.StepsPerformTheFedBytes := by
  intro bs rest
  induction bs with
  | nil =>
    intro s (hp : s.pending = rest)
    subst hp
    rfl
  | cons b bs ih =>
    intro s hp
    have hstep := step_of_byteInput hp
    have hbyte := exec_onByte_withSequence b (byteInputs bs ++ rest) rest (s.pos + (bs.length + 1)) s
    match hx : exec (.onByte b) (takeInput (byteInputs bs ++ rest) s) with
    | .next t =>
      rw [hx] at hstep hbyte
      obtain ⟨-, -, -, -, -, -, hpend, hpos⟩ := exec_onByte_unchanged hx
      have hseq : t.pos + bs.length = s.pos + (bs.length + 1) := by
        rw [hpos, takeInput_pos]
        omega
      have hrest : Host.Core.run Sys2Proof.core bs.length t = feed bs (withSequence rest (t.pos + bs.length) t) :=
        ih t hpend
      rw [hseq] at hrest
      exact (core_run_of_next hstep _).trans (hrest.trans (feed_cons_of_next hbyte bs).symm)
    | .fault r => cases r
    | .refused r =>
      rw [hx] at hstep hbyte
      exact (core_run_of_refused hstep _).trans (feed_cons_of_refused hbyte bs).symm

end Sys2Proof.Machine
end

section
/-! No residual state (R106): two machines whose receive ports differ at most in `RX` outside `[0, wi)` answer a byte alike. -/

namespace Sys2Proof.Machine

/-- From `s` to `u` and from `t` to `v` the same outcomes and the same frames were added to the record. -/
def SameAdded (s t u v : State) : Prop :=
  ∃ os fs, u.outcomes = s.outcomes ++ os ∧ v.outcomes = t.outcomes ++ os ∧
    (u.frames.map fun e => e.2) = (s.frames.map fun e => e.2) ++ fs ∧
    (v.frames.map fun e => e.2) = (t.frames.map fun e => e.2) ++ fs

theorem SameAdded.refl (s t : State) : SameAdded s t s t := ⟨[], [], by simp⟩

theorem SameAdded.trans {s t u v w x : State} (h : SameAdded s t u v) (h' : SameAdded u v w x) :
    SameAdded s t w x := by
  obtain ⟨os, fs, hu, hv, hfu, hfv⟩ := h
  obtain ⟨os', fs', hw, hx, hfw, hfx⟩ := h'
  exact ⟨os ++ os', fs ++ fs', by simp [hw, hu], by simp [hx, hv], by simp [hfw, hfu], by simp [hfx, hfv]⟩

theorem sameAdded_accept (s t : State) (d e : Decoder) : SameAdded s t (accept d s) (accept e t) :=
  ⟨[.inProgress], [], by simp⟩

theorem sameAdded_raiseError (s t : State) (o : RxOutcome) : SameAdded s t (raiseError o s) (raiseError o t) :=
  ⟨[o], [], by simp⟩

theorem sameAdded_emitFrame (s t : State) (f : List Byte) : SameAdded s t (emitFrame f s) (emitFrame f t) :=
  ⟨[.frameComplete], [f], by simp⟩

/-- Two machines that have just reset their decoders are alike: no cell is below `wi = 0`. -/
theorem sameReceive_of_reset {s t u v : State} (hcap : u.rxCapacity = v.rxCapacity) (hu : u.dec = s.dec.reset)
    (hv : v.dec = t.dec.reset) : SameReceive u v := by
  refine ⟨hcap, by rw [hu, hv]; rfl, by rw [hu, hv]; rfl, fun i hi => ?_⟩
  rw [hu, Decoder.reset_wi] at hi
  exact absurd hi (Nat.not_lt_zero i)

/-- A frame is read from the cells below `wi` alone. -/
theorem SameReceive.frame {s t : State} (h : SameReceive s t) {f : List Byte} (hf : s.dec.frame = some f) :
    t.dec.frame = some f := by
  obtain ⟨-, -, hwi, hcells⟩ := h
  obtain ⟨hlen, hread⟩ := (s.dec.frame_eq_some f).1 hf
  rw [Decoder.frame_eq_some, ← hwi]
  exact ⟨hlen, fun j hj => (hcells j hj).symm.trans (hread j hj)⟩

/-- Storing the same byte at `wi` in both keeps them alike. -/
theorem SameReceive.stored {s t : State} (h : SameReceive s t) (v : Byte) :
    SameReceive (accept { mode := .decoding, wi := s.dec.wi + 1, rx := s.dec.rx.write s.dec.wi v } s)
      (accept { mode := .decoding, wi := t.dec.wi + 1, rx := t.dec.rx.write t.dec.wi v } t) := by
  obtain ⟨hcap, -, hwi, hcells⟩ := h
  refine ⟨hcap, rfl, congrArg (· + 1) hwi, fun i (hi : i < s.dec.wi + 1) => ?_⟩
  simp only [accept_dec, Memory.read_write, ← hwi]
  split_ifs with heq
  · rfl
  · exact hcells i (by omega)

/-- One byte: the second machine goes on as the first does, with the same outcome and frame. -/
theorem SameReceive.exec_onByte {s t u : State} {b : Byte} (h : SameReceive s t)
    (hu : exec (.onByte b) s = .next u) :
    ∃ v, exec (.onByte b) t = .next v ∧ SameReceive u v ∧ SameAdded s t u v := by
  have ⟨hcap, hmode, hwi, hcells⟩ := h
  obtain ⟨hm, rfl, h0, rfl⟩ | ⟨hm, rfl, hpos, f, hf, rfl⟩ | ⟨hm, rfl, rfl⟩ | ⟨v, hv, hlt, rfl⟩ | ⟨v, hv, hfull, rfl⟩ |
    ⟨hm, hv, rfl⟩ := exec_onByte_cases hu
  · exact ⟨_, exec_END_of_zero (hmode ▸ hm) (hwi ▸ h0), h, sameAdded_accept ..⟩
  · exact ⟨_, exec_END_of_frame (hmode ▸ hm) (hwi ▸ hpos) (h.frame hf), sameReceive_of_reset hcap rfl rfl,
      sameAdded_emitFrame ..⟩
  · exact ⟨_, exec_onByte_ESC (hmode ▸ hm), ⟨hcap, rfl, hwi, hcells⟩, sameAdded_accept ..⟩
  · exact ⟨_, (exec_onByte_stored (hmode ▸ hv)).trans (congrArg _ (putByte_of_lt v (hcap ▸ hwi ▸ hlt))), h.stored v,
      sameAdded_accept ..⟩
  · exact ⟨_, (exec_onByte_stored (hmode ▸ hv)).trans (congrArg _ (putByte_of_full v (hcap ▸ hwi ▸ hfull))),
      sameReceive_of_reset hcap rfl rfl, sameAdded_raiseError ..⟩
  · exact ⟨_, exec_onByte_invalid (hmode ▸ hm) (hmode ▸ hv), sameReceive_of_reset hcap rfl rfl, sameAdded_raiseError ..⟩

/-- A fed stream that goes on is its first byte and then the rest. -/
theorem feed_cons_next {b : Byte} {bs : List Byte} {s u : State} (h : feed (b :: bs) s = .next u) :
    ∃ t, exec (.onByte b) s = .next t ∧ feed bs t = .next u := by
  rw [feed] at h
  match hx : exec (.onByte b) s with
  | .next t => exact ⟨t, rfl, by rw [hx] at h; exact h⟩
  | .fault r => rw [hx] at h; cases h
  | .refused r => rw [hx] at h; cases h

/-- A whole stream, by induction on its bytes. -/
theorem SameReceive.feed {bs : List Byte} : ∀ {s t u : State}, SameReceive s t → feed bs s = .next u →
    ∃ v, feed bs t = .next v ∧ SameReceive u v ∧ SameAdded s t u v := by
  induction bs with
  | nil =>
    intro s t u h hu
    cases hu
    exact ⟨t, rfl, h, .refl s t⟩
  | cons b bs ih =>
    intro s t u h hu
    obtain ⟨s', hs', hu⟩ := feed_cons_next hu
    obtain ⟨t', ht', hsame, hadded⟩ := h.exec_onByte hs'
    obtain ⟨v, hv, hsame', hadded'⟩ := ih hsame hu
    exact ⟨v, (feed_cons_of_next ht' bs).trans hv, hsame', hadded.trans hadded'⟩

/-- Settles O36. -/
theorem staleBytesNeverReachAFrame : Obligations.StaleBytesNeverReachAFrame := by
  intro bs s t u h hu
  obtain ⟨v, hv, hsame, os, fs, hadded⟩ := h.feed hu
  exact ⟨v, os, fs, hv, hsame, hadded⟩

end Sys2Proof.Machine
end

section
/-! Whole streams: a wire form fed to the receive port, followed from the bytes that the decoder holds. -/

namespace Sys2Proof.Machine

/-- The decoder is in Decoding mode and holds the frame in progress `f`. With `f = []` it is in its initial state. -/
def Holding (f : List Byte) (d : Decoder) : Prop := d.mode = .decoding ∧ d.frame = some f

theorem Holding.wi {f : List Byte} {d : Decoder} (h : Holding f d) : d.wi = f.length :=
  ((d.frame_eq_some f).1 h.2).1.symm

theorem holding_nil_iff (d : Decoder) : Holding [] d ↔ d.initial := by
  constructor
  · exact fun h => ⟨h.1, h.wi⟩
  · rintro ⟨hm, h0⟩
    exact ⟨hm, (d.frame_eq_some []).2 ⟨h0.symm, fun j hj => absurd (h0 ▸ hj) (Nat.not_lt_zero j)⟩⟩

theorem holding_reset (d : Decoder) : Holding [] d.reset := (holding_nil_iff _).2 d.reset_initial

/-- Storing a byte appends it to the frame in progress. -/
theorem Holding.stored {f : List Byte} {d : Decoder} (h : Holding f d) (v : Byte) :
    Holding (f ++ [v]) { mode := .decoding, wi := d.wi + 1, rx := d.rx.write d.wi v } := by
  obtain ⟨hlen, hcells⟩ := (d.frame_eq_some f).1 h.2
  refine ⟨rfl, (Decoder.frame_eq_some _ _).2 ⟨by simp [hlen], fun j (hj : j < d.wi + 1) => ?_⟩⟩
  rw [Memory.read_write, ← hlen]
  split_ifs with heq
  · simp [heq]
  · rw [hcells j (by omega), List.getElem?_append_left (by omega)]

/-! ### The pieces of a wire form -/

/-- `s` to `t` by bytes that were all in progress: no event, and one outcome for each byte. -/
structure InProgress (bs : List Byte) (s t : State) : Prop where
  feed : feed bs s = .next t
  rxCapacity : t.rxCapacity = s.rxCapacity
  frames : t.frames = s.frames
  outcomes : t.outcomes = s.outcomes ++ List.replicate bs.length .inProgress

theorem InProgress.append {xs ys : List Byte} {s t u : State} (h : InProgress xs s t) (h' : InProgress ys t u) :
    InProgress (xs ++ ys) s u where
  feed := (feed_append xs ys s t h.feed).trans h'.feed
  rxCapacity := h'.rxCapacity.trans h.rxCapacity
  frames := h'.frames.trans h.frames
  outcomes := by rw [h'.outcomes, h.outcomes, List.length_append, List.replicate_add, List.append_assoc]

/-- The output of one payload byte, below the capacity: the byte is stored. -/
theorem inProgress_escaped {f : List Byte} {s : State} (h : Holding f s.dec) (hlt : f.length < s.rxCapacity) (p : Byte) :
    ∃ t, InProgress (escaped p) s t ∧ Holding (f ++ [p]) t.dec := by
  obtain ⟨t, hfeed, hdec, hcap, hframes, houts⟩ := feed_escaped h.1 p (h.wi ▸ hlt)
  exact ⟨t, ⟨hfeed, hcap, hframes, houts⟩, hdec ▸ h.stored p⟩

/-- The output of a payload that fits: its bytes are stored in order (R82 to R86). -/
theorem inProgress_payload (p : List Byte) : ∀ {f : List Byte} {s : State}, Holding f s.dec →
    f.length + p.length ≤ s.rxCapacity → ∃ t, InProgress (p.flatMap escaped) s t ∧ Holding (f ++ p) t.dec := by
  induction p with
  | nil => exact fun {f s} h _ => ⟨s, ⟨rfl, rfl, rfl, by simp⟩, by simpa using h⟩
  | cons v p ih =>
    intro f s h hfit
    rw [List.length_cons] at hfit
    obtain ⟨t, ht, hheld⟩ := inProgress_escaped h (by omega) v
    obtain ⟨u, hu, hheld'⟩ := ih hheld (by rw [ht.rxCapacity, List.length_append, List.length_singleton]; omega)
    exact ⟨u, ht.append hu, by simpa using hheld'⟩

/-- From the initial state the leading `END` of a wire form is a redundant delimiter, and the payload is then held. -/
theorem inProgress_wire {p : List Byte} {s : State} (h : s.dec.initial) (hfit : p.length ≤ s.rxCapacity) :
    ∃ t, InProgress (wire p) s t ∧ Holding p t.dec := by
  have lead : InProgress [END] s (accept s.dec s) :=
    ⟨feed_cons_of_next (exec_END_of_zero h.1 h.2) [], rfl, rfl, rfl⟩
  obtain ⟨t, ht, hheld⟩ := inProgress_payload p (s := accept s.dec s) ((holding_nil_iff _).2 h)
    (by simpa using hfit)
  exact ⟨t, lead.append ht, hheld⟩

/-- A frame delimiter delivers the bytes that are held (R102). -/
theorem exec_END_of_holding {p : List Byte} {s : State} (h : Holding p s.dec) (hpos : 1 ≤ p.length) :
    exec (.onByte END) s = .next (emitFrame p s) :=
  exec_END_of_frame h.1 (h.wi ▸ hpos) h.2

/-! ### Round trip (R131) -/

/-- A frame delimiter in any receive state that meets the invariant leaves the decoder initial; it completes at most the
frame in progress in Decoding mode. -/
theorem exec_END_of_inv {s : State} (inv : BlockInv s) : ∃ t lead, exec (.onByte END) s = .next t ∧ t.dec.initial ∧
    t.rxCapacity = s.rxCapacity ∧ t.frames = s.frames ++ lead ∧ t.outcomes.length = s.outcomes.length + 1 ∧
    (s.dec.mode = .decoding ∧ 0 < s.dec.wi → ∃ f, s.dec.frame = some f ∧ lead = [(s.outcomes.length, f)]) ∧
    (¬ (s.dec.mode = .decoding ∧ 0 < s.dec.wi) → lead = []) := by
  cases hm : s.dec.mode with
  | decoding =>
    by_cases h0 : s.dec.wi = 0
    · exact ⟨_, [], exec_END_of_zero hm h0, ⟨hm, h0⟩, by simp [h0]⟩
    · obtain ⟨f, hf, -⟩ := inv.exists_frame
      have hpos : 0 < s.dec.wi := Nat.pos_of_ne_zero h0
      exact ⟨_, [(s.outcomes.length, f)], exec_END_of_frame hm hpos hf, s.dec.reset_initial, by simp [hf, hpos]⟩
  | escapeHandling =>
    have hnone : storedByte s.dec.mode END = none := by rw [hm]; rfl
    exact ⟨_, [], exec_onByte_invalid hm hnone, s.dec.reset_initial, by simp⟩

/-- A wire form and a closing `END`, after its leading `END` has been fed. -/
theorem feed_payload_END {p : List Byte} {s : State} (h : s.dec.initial) (hpos : 1 ≤ p.length)
    (hfit : p.length ≤ s.rxCapacity) : ∃ t, InProgress (p.flatMap escaped) s t ∧
      feed (p.flatMap escaped ++ [END]) s = .next (emitFrame p t) := by
  obtain ⟨t, ht, hheld⟩ := inProgress_payload p ((holding_nil_iff _).2 h) (by simpa using hfit)
  exact ⟨t, ht, (feed_append _ [END] s t ht.feed).trans (feed_cons_of_next (exec_END_of_holding hheld hpos) [])⟩

/-- Settles O50: the leading `END` ends what was in progress, the payload is stored byte by byte, the closing `END` delivers
it. -/
theorem roundTripDeliversThePayload : Obligations.RoundTripDeliversThePayload := by
  constructor
  · intro s p inv hpos hfit
    obtain ⟨u, lead, hu, hinit, hcap, hframes, houts, hlead, hnolead⟩ := exec_END_of_inv inv
    obtain ⟨t, ht, hfeed⟩ := feed_payload_END hinit hpos (hcap ▸ hfit)
    have hidx : t.outcomes.length = s.outcomes.length + (wire p).length := by
      rw [ht.outcomes, List.length_append, houts, List.length_replicate, wire, List.length_cons]
      omega
    have hevents : (emitFrame p t).frames = s.frames ++ lead ++ [(s.outcomes.length + (wire p).length, p)] := by
      rw [emitFrame_frames, hidx, ht.frames, hframes]
    exact ⟨emitFrame p t, lead, (feed_cons_of_next hu _).trans hfeed, rfl, rfl, rfl, rfl, hevents, hlead, hnolead⟩
  · intro s inv h
    obtain ⟨t, ht, hheld⟩ := inProgress_wire (p := []) h (Nat.zero_le _)
    obtain ⟨hm, h0⟩ := (holding_nil_iff _).1 hheld
    exact ⟨accept t.dec t, (feed_append _ [END] s t ht.feed).trans (feed_cons_of_next (exec_END_of_zero hm h0) []),
      ht.frames⟩

/-! ### Back-to-back frames (R174(a)) -/

/-- A wire form fed while another payload is held: its leading `END` delivers that payload. -/
theorem feed_wire_of_holding {p q : List Byte} {s : State} (h : Holding p s.dec) (hpos : 1 ≤ p.length)
    (hfit : q.length ≤ s.rxCapacity) : ∃ t, feed (wire q) s = .next t ∧ Holding q t.dec ∧
      t.frames = s.frames ++ [(s.outcomes.length, p)] ∧ t.outcomes.length = s.outcomes.length + (wire q).length := by
  obtain ⟨t, ht, hheld⟩ := inProgress_payload q (s := emitFrame p s) (holding_reset s.dec) (by simpa using hfit)
  refine ⟨t, (feed_cons_of_next (exec_END_of_holding h hpos) _).trans ht.feed, hheld, ht.frames, ?_⟩
  simp [ht.outcomes, wire]

/-- Settles O51. -/
theorem backToBackFramesAreToldApart : Obligations.BackToBackFramesAreToldApart := by
  intro s p q inv h hp hpfit hq hqfit
  obtain ⟨t, ht, hheld⟩ := inProgress_wire h hpfit
  obtain ⟨u, hu, hheld', hframes, hlen⟩ := feed_wire_of_holding hheld hp (ht.rxCapacity ▸ hqfit)
  have hidx : t.outcomes.length = s.outcomes.length + (wire p).length := by simp [ht.outcomes]
  refine ⟨emitFrame q u, ?_, u.dec.reset_initial, ?_⟩
  · rw [List.append_assoc, feed_append _ _ s t ht.feed, feed_append _ _ t u hu]
    exact feed_cons_of_next (exec_END_of_holding hheld' hq) []
  · simp [hframes, hlen, hidx, ht.frames]

/-! ### One byte over the capacity (P-BND) -/

/-- The output of a payload byte at a full buffer: `ESC` is still in progress, the byte that would be stored overflows. -/
theorem feed_escaped_of_full {f : List Byte} {s : State} (h : Holding f s.dec) (hfull : f.length = s.rxCapacity)
    (p : Byte) : ∃ t, feed (escaped p) s = .next t ∧ t.dec.initial ∧ t.frames = s.frames ∧
      t.outcomes = s.outcomes ++ List.replicate ((escaped p).length - 1) .inProgress ++ [.overflow] := by
  have hwi : s.rxCapacity ≤ s.dec.wi := (h.wi.trans hfull).ge
  have overflow {u : State} {b v : Byte} (hstored : storedByte u.dec.mode b = some v) (hle : u.rxCapacity ≤ u.dec.wi) :
      feed [b] u = .next (raiseError .overflow u) :=
    feed_cons_of_next ((exec_onByte_stored hstored).trans (congrArg _ (putByte_of_full v hle))) []
  have escape (b : Byte) : feed [ESC, b] s = feed [b] (accept { s.dec with mode := .escapeHandling } s) :=
    feed_cons_of_next (exec_onByte_ESC h.1) [b]
  rw [escaped_eq]
  split_ifs with hEnd hEsc
  · exact ⟨_, (escape ESC_END).trans (overflow (v := END) rfl hwi), ⟨rfl, rfl⟩, rfl, rfl⟩
  · exact ⟨_, (escape ESC_ESC).trans (overflow (v := ESC) rfl hwi), ⟨rfl, rfl⟩, rfl, rfl⟩
  · exact ⟨_, overflow (by rw [h.1]; exact storedByte_decoding hEnd hEsc) hwi, ⟨rfl, rfl⟩, rfl, by simp⟩

theorem wire_append_singleton (p : List Byte) (v : Byte) : wire (p ++ [v]) = wire p ++ escaped v := by
  simp [wire]

theorem escaped_length_pos (p : Byte) : 1 ≤ (escaped p).length := by
  rw [escaped_length]
  omega

/-- Settles O52: the first `N` payload bytes fill the buffer, the last byte's output overflows. -/
theorem oneByteOverTheCapacityOverflows : Obligations.OneByteOverTheCapacityOverflows := by
  intro s p inv h hlen
  obtain rfl | ⟨q, v, rfl⟩ := List.eq_nil_or_concat' p
  · simp at hlen
  have hq : q.length = s.rxCapacity := by simpa using hlen
  obtain ⟨t, ht, hheld⟩ := inProgress_wire h hq.le
  obtain ⟨u, hu, hinit, hframes, houts⟩ := feed_escaped_of_full hheld (hq.trans ht.rxCapacity.symm) v
  have hcount : (wire (q ++ [v])).length - 1 = (wire q).length + ((escaped v).length - 1) := by
    have hpos := escaped_length_pos v
    rw [wire_append_singleton, List.length_append]
    omega
  refine ⟨u, ?_, hinit, hframes.trans ht.frames, ?_⟩
  · rw [wire_append_singleton, feed_append _ _ s t ht.feed, hu]
  · rw [houts, ht.outcomes, hcount, List.replicate_add]
    simp

end Sys2Proof.Machine
end
